-- ==== Sys2Proof/Word.lean ====
section
/-! DEFINITION. The word types of the machine (00_scope.md R6, R8; 30_encoding.md R81).
All values are unsigned; bit 0 is the least significant bit. -/

namespace Sys2Proof

/-- One byte: the width of a general register, a timer, the flag register and a memory cell. -/
abbrev Byte := BitVec 8

/-- Sixteen bits: an instruction word, `PC`, `I`, a stack entry. -/
abbrev Word16 := BitVec 16

/-- A nibble: a register index (`x`, `y`), a sprite height `n`, a key code. -/
abbrev Nibble := BitVec 4

/-- A twelve-bit address or immediate, the field `nnn`. -/
abbrev Addr12 := BitVec 12

end Sys2Proof
end

