-- ==== Sys2Proof/Syntax.lean ====
section
/-! DEFINITION. The instructions: one constructor for each of the 36 operation kinds of 30_encoding.md R86, each carrying
the operand fields its form needs (R102). -/

namespace Sys2Proof

/-- The closed set of operations the decoder can answer (R86, R102); the comment gives the mnemonic and the words. -/
inductive Instr where
  /-- `NOP`, `0-00` (R130). -/
  | noOp
  /-- `INVALID`, every word no other row takes (R94, R131). -/
  | invalidInstruction
  /-- `CLS`, `0-E0` (R132). -/
  | clearDisplay
  /-- `RET`, `0-EE` (R133). -/
  | ret
  /-- `JP nnn`, `1nnn` (R134). -/
  | jump (nnn : Addr12)
  /-- `CALL nnn`, `2nnn` (R135). -/
  | call (nnn : Addr12)
  /-- `SE Vx, kk`, `3xkk` (R140). -/
  | skipEqImm (x : Nibble) (kk : Byte)
  /-- `SNE Vx, kk`, `4xkk` (R141). -/
  | skipNeImm (x : Nibble) (kk : Byte)
  /-- `SE Vx, Vy`, `5xy0` (R142). -/
  | skipEqReg (x y : Nibble)
  /-- `SNE Vx, Vy`, `9xy-` (R143). -/
  | skipNeReg (x y : Nibble)
  /-- `LD Vx, kk`, `6xkk` (R150). -/
  | loadImm (x : Nibble) (kk : Byte)
  /-- `ADD Vx, kk`, `7xkk` (R151). -/
  | addImm (x : Nibble) (kk : Byte)
  /-- `LD Vx, Vy`, `8xy0` (R152). -/
  | copy (x y : Nibble)
  /-- `OR Vx, Vy`, `8xy1` (R153). -/
  | orReg (x y : Nibble)
  /-- `AND Vx, Vy`, `8xy2` (R154). -/
  | andReg (x y : Nibble)
  /-- `XOR Vx, Vy`, `8xy3` (R155). -/
  | xorReg (x y : Nibble)
  /-- `ADD Vx, Vy`, `8xy4` (R156). -/
  | addReg (x y : Nibble)
  /-- `SUB Vx, Vy`, `8xy5` (R157). -/
  | subReg (x y : Nibble)
  /-- `SUBN Vx, Vy`, `8xy7` (R158). -/
  | subRegReverse (x y : Nibble)
  /-- `SHR Vx`, `8xy6`: `y` is extracted and not used (R159, R96). -/
  | shiftRight (x y : Nibble)
  /-- `SHL Vx`, `8xyE`: `y` is extracted and not used (R160, R96). -/
  | shiftLeft (x y : Nibble)
  /-- `LD I, nnn`, `Annn` (R170). -/
  | setAddress (nnn : Addr12)
  /-- `JP V0, nnn`, `Bnnn` (R171). -/
  | jumpIndexed (nnn : Addr12)
  /-- `RND Vx, kk`, `Cxkk` (R172). -/
  | random (x : Nibble) (kk : Byte)
  /-- `DRW Vx, Vy, n`, `Dxyn` (R180). -/
  | draw (x y n : Nibble)
  /-- `SKP Vx`, `Ex9E` (R190). -/
  | skipKeyDown (x : Nibble)
  /-- `SKNP Vx`, `ExA1` (R191). -/
  | skipKeyUp (x : Nibble)
  /-- `LD Vx, DT`, `Fx07` (R200). -/
  | readDelay (x : Nibble)
  /-- `LD Vx, K`, `Fx0A` (R201). -/
  | waitKey (x : Nibble)
  /-- `LD DT, Vx`, `Fx15` (R202). -/
  | setDelay (x : Nibble)
  /-- `LD ST, Vx`, `Fx18` (R203). -/
  | setSound (x : Nibble)
  /-- `ADD I, Vx`, `Fx1E` (R204). -/
  | addAddress (x : Nibble)
  /-- `LD F, Vx`, `Fx29` (R205). -/
  | fontAddress (x : Nibble)
  /-- `LD B, Vx`, `Fx33` (R207). -/
  | storeBcd (x : Nibble)
  /-- `LD [I], Vx`, `Fx55` (R208). -/
  | storeRegs (x : Nibble)
  /-- `LD Vx, [I]`, `Fx65` (R209). -/
  | loadRegs (x : Nibble)
  deriving DecidableEq, Repr

end Sys2Proof
end

