-- ==== Sys2Proof/WellFormed.lean ====
section
/-! DEFINITION. Well-formed operations. The fields of `Instr` have the widths of 30_encoding.md R81, so every term of
`Instr` is a well-formed instruction and needs no check. What can be ill formed is the decoder's output seen as hardware
wires: the bundle of R102, a variant tag beside the raw fields. `Bundle.wellFormed` is that check, and `Bundle.instr?`
reads the operation out of a well-formed bundle. -/

namespace Sys2Proof

/-- The decoder's output as a bundle (R102): the tag is the number of the kind in R86's table, 1 to 36 (log 33), beside the raw
fields of R81. -/
structure Bundle where
  tag : BitVec 6
  x   : Nibble
  y   : Nibble
  n   : Nibble
  kk  : Byte
  nnn : Addr12
  deriving DecidableEq, Repr

/-- The tag names one of the 36 kinds (R2, R86). -/
def Bundle.tagOk (b : Bundle) : Bool := decide (1 ≤ b.tag.toNat) && decide (b.tag.toNat ≤ 36)

/-- `kk = y ++ n`: the fields overlap in the word (R81). -/
def Bundle.kkOk (b : Bundle) : Bool := b.kk.toNat == b.y.toNat * 16 + b.n.toNat

/-- `nnn = x ++ y ++ n`: the fields overlap in the word (R81). -/
def Bundle.nnnOk (b : Bundle) : Bool := b.nnn.toNat == b.x.toNat * 256 + b.y.toNat * 16 + b.n.toNat

/-- A bundle some instruction word can put on the decoder's output (R81, R102). -/
def Bundle.wellFormed (b : Bundle) : Bool := b.tagOk && b.kkOk && b.nnnOk

/-- The operation with the tag's number and the payload of R86's table. -/
def Bundle.payload (b : Bundle) : Option Instr :=
  match b.tag.toNat with
  | 1 => some .noOp
  | 2 => some .invalidInstruction
  | 3 => some .clearDisplay
  | 4 => some .ret
  | 5 => some (.jump b.nnn)
  | 6 => some (.call b.nnn)
  | 7 => some (.skipEqImm b.x b.kk)
  | 8 => some (.skipNeImm b.x b.kk)
  | 9 => some (.skipEqReg b.x b.y)
  | 10 => some (.skipNeReg b.x b.y)
  | 11 => some (.loadImm b.x b.kk)
  | 12 => some (.addImm b.x b.kk)
  | 13 => some (.copy b.x b.y)
  | 14 => some (.orReg b.x b.y)
  | 15 => some (.andReg b.x b.y)
  | 16 => some (.xorReg b.x b.y)
  | 17 => some (.addReg b.x b.y)
  | 18 => some (.subReg b.x b.y)
  | 19 => some (.subRegReverse b.x b.y)
  | 20 => some (.shiftLeft b.x b.y)
  | 21 => some (.shiftRight b.x b.y)
  | 22 => some (.setAddress b.nnn)
  | 23 => some (.jumpIndexed b.nnn)
  | 24 => some (.random b.x b.kk)
  | 25 => some (.draw b.x b.y b.n)
  | 26 => some (.skipKeyDown b.x)
  | 27 => some (.skipKeyUp b.x)
  | 28 => some (.readDelay b.x)
  | 29 => some (.waitKey b.x)
  | 30 => some (.setDelay b.x)
  | 31 => some (.setSound b.x)
  | 32 => some (.addAddress b.x)
  | 33 => some (.fontAddress b.x)
  | 34 => some (.storeBcd b.x)
  | 35 => some (.storeRegs b.x)
  | 36 => some (.loadRegs b.x)
  | _ => none

/-- The operation a bundle carries, none for an ill-formed bundle. -/
def Bundle.instr? (b : Bundle) : Option Instr := if b.wellFormed then b.payload else none

/-- The number of an operation's kind in R86's table: the variant tag of R102. -/
def Instr.tag (i : Instr) : BitVec 6 :=
  match i with
  | .noOp => 1
  | .invalidInstruction => 2
  | .clearDisplay => 3
  | .ret => 4
  | .jump _ => 5
  | .call _ => 6
  | .skipEqImm _ _ => 7
  | .skipNeImm _ _ => 8
  | .skipEqReg _ _ => 9
  | .skipNeReg _ _ => 10
  | .loadImm _ _ => 11
  | .addImm _ _ => 12
  | .copy _ _ => 13
  | .orReg _ _ => 14
  | .andReg _ _ => 15
  | .xorReg _ _ => 16
  | .addReg _ _ => 17
  | .subReg _ _ => 18
  | .subRegReverse _ _ => 19
  | .shiftLeft _ _ => 20
  | .shiftRight _ _ => 21
  | .setAddress _ => 22
  | .jumpIndexed _ => 23
  | .random _ _ => 24
  | .draw _ _ _ => 25
  | .skipKeyDown _ => 26
  | .skipKeyUp _ => 27
  | .readDelay _ => 28
  | .waitKey _ => 29
  | .setDelay _ => 30
  | .setSound _ => 31
  | .addAddress _ => 32
  | .fontAddress _ => 33
  | .storeBcd _ => 34
  | .storeRegs _ => 35
  | .loadRegs _ => 36

end Sys2Proof
end

