-- ==== Sys2Proof/Decode.lean ====
section
/-! DEFINITION. The decoder of 30_encoding.md (R80 to R98), total on every word, and after it the encoder and the opcode
table of R97 as data. The numeric opcode map is the spec's general knowledge G1 (decision D12, log 4). -/

namespace Sys2Proof

/-! ## The fields of an instruction word (R81) -/

/-- `op = w[15:12]`. -/
def opOf (w : Word16) : Nibble := w.extractLsb' 12 4

/-- `x = w[11:8]`. -/
def xOf (w : Word16) : Nibble := w.extractLsb' 8 4

/-- `y = w[7:4]`. -/
def yOf (w : Word16) : Nibble := w.extractLsb' 4 4

/-- `n = w[3:0]`. -/
def nOf (w : Word16) : Nibble := w.extractLsb' 0 4

/-- `kk = w[7:0]`. -/
def kkOf (w : Word16) : Byte := w.extractLsb' 0 8

/-- `nnn = w[11:0]`. -/
def nnnOf (w : Word16) : Addr12 := w.extractLsb' 0 12

/-! ## The families with a secondary selector -/

/-- Family 0 (R87): the trailing byte selects, bits 11 to 8 are ignored (decision D9, log 5). -/
def decodeFamily0 (w : Word16) : Instr :=
  match kkOf w with
  | 0x00#8 => .noOp
  | 0xE0#8 => .clearDisplay
  | 0xEE#8 => .ret
  | _ => .invalidInstruction

/-- Family 5 (R88): the last nibble selects. -/
def decodeFamily5 (w : Word16) : Instr :=
  match nOf w with
  | 0x0#4 => .skipEqReg (xOf w) (yOf w)
  | _ => .invalidInstruction

/-- Family 8 (R89): the last nibble selects. -/
def decodeFamily8 (w : Word16) : Instr :=
  match nOf w with
  | 0x0#4 => .copy (xOf w) (yOf w)
  | 0x1#4 => .orReg (xOf w) (yOf w)
  | 0x2#4 => .andReg (xOf w) (yOf w)
  | 0x3#4 => .xorReg (xOf w) (yOf w)
  | 0x4#4 => .addReg (xOf w) (yOf w)
  | 0x5#4 => .subReg (xOf w) (yOf w)
  | 0x6#4 => .shiftRight (xOf w) (yOf w)
  | 0x7#4 => .subRegReverse (xOf w) (yOf w)
  | 0xE#4 => .shiftLeft (xOf w) (yOf w)
  | _ => .invalidInstruction

/-- Family E (R91): the trailing byte selects (decision D11). -/
def decodeFamilyE (w : Word16) : Instr :=
  match kkOf w with
  | 0x9E#8 => .skipKeyDown (xOf w)
  | 0xA1#8 => .skipKeyUp (xOf w)
  | _ => .invalidInstruction

/-- Family F (R92): the trailing byte selects (decision D11). -/
def decodeFamilyF (w : Word16) : Instr :=
  match kkOf w with
  | 0x07#8 => .readDelay (xOf w)
  | 0x0A#8 => .waitKey (xOf w)
  | 0x15#8 => .setDelay (xOf w)
  | 0x18#8 => .setSound (xOf w)
  | 0x1E#8 => .addAddress (xOf w)
  | 0x29#8 => .fontAddress (xOf w)
  | 0x33#8 => .storeBcd (xOf w)
  | 0x55#8 => .storeRegs (xOf w)
  | 0x65#8 => .loadRegs (xOf w)
  | _ => .invalidInstruction

/-- `decode(w)` (R84, R85): the top nibble selects the family; families 1 to 4, 6, 7 and 9 to D hold one operation each
(R90, R93). Family 9 ignores its last nibble (decision D10, log 6). -/
def decodeWord (w : Word16) : Instr :=
  match opOf w with
  | 0x0#4 => decodeFamily0 w
  | 0x1#4 => .jump (nnnOf w)
  | 0x2#4 => .call (nnnOf w)
  | 0x3#4 => .skipEqImm (xOf w) (kkOf w)
  | 0x4#4 => .skipNeImm (xOf w) (kkOf w)
  | 0x5#4 => decodeFamily5 w
  | 0x6#4 => .loadImm (xOf w) (kkOf w)
  | 0x7#4 => .addImm (xOf w) (kkOf w)
  | 0x8#4 => decodeFamily8 w
  | 0x9#4 => .skipNeReg (xOf w) (yOf w)
  | 0xA#4 => .setAddress (nnnOf w)
  | 0xB#4 => .jumpIndexed (nnnOf w)
  | 0xC#4 => .random (xOf w) (kkOf w)
  | 0xD#4 => .draw (xOf w) (yOf w) (nOf w)
  | 0xE#4 => decodeFamilyE w
  | _ => decodeFamilyF w

/-- The decoder's output as hardware wires (R102). -/
def decodeBundle (w : Word16) : Bundle :=
  { tag := (decodeWord w).tag, x := xOf w, y := yOf w, n := nOf w, kk := kkOf w, nnn := nnnOf w }

/-! ## Decoding bytes -/

/-- Why a list of bytes holds no instruction. -/
inductive DecodeError where
  /-- Fewer than two bytes: every instruction is two bytes long (R80). Safe: no word was there to decode. -/
  | truncated
  deriving DecidableEq, Repr

/-- The word whose high byte is `hi` and whose low byte is `lo` (R54: `hi * 256 + lo`). -/
def wordOf (hi lo : Byte) : Word16 := BitVec.ofNat 16 (hi.toNat * 256 + lo.toNat)

/-- The two bytes of a word as memory holds them, high byte at the lower address (R59). -/
def wordBytes (w : Word16) : List Byte := [w.extractLsb' 8 8, w.extractLsb' 0 8]

/-- The instruction at the head of a list of bytes, with the bytes after it. -/
def decode (bytes : List Byte) : Except DecodeError (Instr × List Byte) :=
  match bytes with
  | hi :: lo :: rest => .ok (decodeWord (wordOf hi lo), rest)
  | [_] => .error .truncated
  | [] => .error .truncated

/-- The bytes of the opcode table's word `w` of `nbits` bits, as memory holds them; the bits from `nbits` up are 0. -/
def tableBytes (nbits w : Nat) : List Byte := wordBytes (BitVec.ofNat 16 (w % 2 ^ nbits))

/-- What the decoder reads from a word numbered as spec/opcode_table.json numbers it. -/
def decodeTableWord (nbits w : Nat) : Option Instr :=
  match decode (tableBytes nbits w) with
  | .ok (i, _) => some i
  | .error _ => none

/-! ## The encoder -/

/-- A word of format `A`: `op`, `nnn` (R82). -/
def packA (op : Nibble) (nnn : Addr12) : Word16 := BitVec.ofNat 16 (op.toNat * 4096 + nnn.toNat)

/-- A word of format `XK`, `X` or `Z`: `op`, `x`, `kk` (R82). -/
def packXK (op x : Nibble) (kk : Byte) : Word16 := BitVec.ofNat 16 (op.toNat * 4096 + x.toNat * 256 + kk.toNat)

/-- A word of format `XY`, `XYi` or `XYN`: `op`, `x`, `y`, `n` (R82). -/
def packXY (op x y n : Nibble) : Word16 :=
  BitVec.ofNat 16 (op.toNat * 4096 + x.toNat * 256 + y.toNat * 16 + n.toNat)

/-- The word of an instruction (R86). Bits the decoder ignores are assembled as 0 (R100). `INVALID` has no assembler form;
its word here is `0x5001`, the first the source names as invalid (R98; DESIGN CHOICE, log 23). -/
def encode (i : Instr) : Word16 :=
  match i with
  | .noOp => packXK 0x0#4 0x0#4 0x00#8
  | .invalidInstruction => packXY 0x5#4 0x0#4 0x0#4 0x1#4
  | .clearDisplay => packXK 0x0#4 0x0#4 0xE0#8
  | .ret => packXK 0x0#4 0x0#4 0xEE#8
  | .jump nnn => packA 0x1#4 nnn
  | .call nnn => packA 0x2#4 nnn
  | .skipEqImm x kk => packXK 0x3#4 x kk
  | .skipNeImm x kk => packXK 0x4#4 x kk
  | .skipEqReg x y => packXY 0x5#4 x y 0x0#4
  | .skipNeReg x y => packXY 0x9#4 x y 0x0#4
  | .loadImm x kk => packXK 0x6#4 x kk
  | .addImm x kk => packXK 0x7#4 x kk
  | .copy x y => packXY 0x8#4 x y 0x0#4
  | .orReg x y => packXY 0x8#4 x y 0x1#4
  | .andReg x y => packXY 0x8#4 x y 0x2#4
  | .xorReg x y => packXY 0x8#4 x y 0x3#4
  | .addReg x y => packXY 0x8#4 x y 0x4#4
  | .subReg x y => packXY 0x8#4 x y 0x5#4
  | .subRegReverse x y => packXY 0x8#4 x y 0x7#4
  | .shiftRight x y => packXY 0x8#4 x y 0x6#4
  | .shiftLeft x y => packXY 0x8#4 x y 0xE#4
  | .setAddress nnn => packA 0xA#4 nnn
  | .jumpIndexed nnn => packA 0xB#4 nnn
  | .random x kk => packXK 0xC#4 x kk
  | .draw x y n => packXY 0xD#4 x y n
  | .skipKeyDown x => packXK 0xE#4 x 0x9E#8
  | .skipKeyUp x => packXK 0xE#4 x 0xA1#8
  | .readDelay x => packXK 0xF#4 x 0x07#8
  | .waitKey x => packXK 0xF#4 x 0x0A#8
  | .setDelay x => packXK 0xF#4 x 0x15#8
  | .setSound x => packXK 0xF#4 x 0x18#8
  | .addAddress x => packXK 0xF#4 x 0x1E#8
  | .fontAddress x => packXK 0xF#4 x 0x29#8
  | .storeBcd x => packXK 0xF#4 x 0x33#8
  | .storeRegs x => packXK 0xF#4 x 0x55#8
  | .loadRegs x => packXK 0xF#4 x 0x65#8

/-- The two bytes of an instruction as memory holds them (R59, R80). -/
def encodeBytes (i : Instr) : List Byte := wordBytes (encode i)

/-! ## The opcode table as a matching procedure (R97) -/

/-- One row: a word `w` belongs to it when `w AND mask = pattern`, and then stands for the operation `instr w`. -/
structure OpcodeRow where
  mask    : Word16
  pattern : Word16
  instr   : Word16 → Instr

/-- The 35 rows other than `INVALID`, in the order and with the numbers of spec/opcode_table.json. -/
def opcodeRows : List OpcodeRow :=
  [ ⟨0xF0FF#16, 0x0000#16, fun _ => .noOp⟩,
    ⟨0xF0FF#16, 0x00E0#16, fun _ => .clearDisplay⟩,
    ⟨0xF0FF#16, 0x00EE#16, fun _ => .ret⟩,
    ⟨0xF000#16, 0x1000#16, fun w => .jump (nnnOf w)⟩,
    ⟨0xF000#16, 0x2000#16, fun w => .call (nnnOf w)⟩,
    ⟨0xF000#16, 0x3000#16, fun w => .skipEqImm (xOf w) (kkOf w)⟩,
    ⟨0xF000#16, 0x4000#16, fun w => .skipNeImm (xOf w) (kkOf w)⟩,
    ⟨0xF00F#16, 0x5000#16, fun w => .skipEqReg (xOf w) (yOf w)⟩,
    ⟨0xF000#16, 0x6000#16, fun w => .loadImm (xOf w) (kkOf w)⟩,
    ⟨0xF000#16, 0x7000#16, fun w => .addImm (xOf w) (kkOf w)⟩,
    ⟨0xF00F#16, 0x8000#16, fun w => .copy (xOf w) (yOf w)⟩,
    ⟨0xF00F#16, 0x8001#16, fun w => .orReg (xOf w) (yOf w)⟩ ]
  ++
  [ ⟨0xF00F#16, 0x8002#16, fun w => .andReg (xOf w) (yOf w)⟩,
    ⟨0xF00F#16, 0x8003#16, fun w => .xorReg (xOf w) (yOf w)⟩,
    ⟨0xF00F#16, 0x8004#16, fun w => .addReg (xOf w) (yOf w)⟩,
    ⟨0xF00F#16, 0x8005#16, fun w => .subReg (xOf w) (yOf w)⟩,
    ⟨0xF00F#16, 0x8006#16, fun w => .shiftRight (xOf w) (yOf w)⟩,
    ⟨0xF00F#16, 0x8007#16, fun w => .subRegReverse (xOf w) (yOf w)⟩,
    ⟨0xF00F#16, 0x800E#16, fun w => .shiftLeft (xOf w) (yOf w)⟩,
    ⟨0xF000#16, 0x9000#16, fun w => .skipNeReg (xOf w) (yOf w)⟩,
    ⟨0xF000#16, 0xA000#16, fun w => .setAddress (nnnOf w)⟩,
    ⟨0xF000#16, 0xB000#16, fun w => .jumpIndexed (nnnOf w)⟩,
    ⟨0xF000#16, 0xC000#16, fun w => .random (xOf w) (kkOf w)⟩,
    ⟨0xF000#16, 0xD000#16, fun w => .draw (xOf w) (yOf w) (nOf w)⟩ ]
  ++
  [ ⟨0xF0FF#16, 0xE09E#16, fun w => .skipKeyDown (xOf w)⟩,
    ⟨0xF0FF#16, 0xE0A1#16, fun w => .skipKeyUp (xOf w)⟩,
    ⟨0xF0FF#16, 0xF007#16, fun w => .readDelay (xOf w)⟩,
    ⟨0xF0FF#16, 0xF00A#16, fun w => .waitKey (xOf w)⟩,
    ⟨0xF0FF#16, 0xF015#16, fun w => .setDelay (xOf w)⟩,
    ⟨0xF0FF#16, 0xF018#16, fun w => .setSound (xOf w)⟩,
    ⟨0xF0FF#16, 0xF01E#16, fun w => .addAddress (xOf w)⟩,
    ⟨0xF0FF#16, 0xF029#16, fun w => .fontAddress (xOf w)⟩,
    ⟨0xF0FF#16, 0xF033#16, fun w => .storeBcd (xOf w)⟩,
    ⟨0xF0FF#16, 0xF055#16, fun w => .storeRegs (xOf w)⟩,
    ⟨0xF0FF#16, 0xF065#16, fun w => .loadRegs (xOf w)⟩ ]

/-- A word belongs to a row (R97). -/
abbrev OpcodeRow.takes (r : OpcodeRow) (w : Word16) : Prop := w &&& r.mask = r.pattern

end Sys2Proof
end

