-- ==== Sys2Proof/Config.lean ====
section
/-! DEFINITION. What the implementation fixes (00_scope.md R6) and the free values: the answers of the peripherals,
which the spec leaves open (93_implementation_defined.md U1, U4, U5). -/

namespace Sys2Proof.Config

/-- `MEM_SIZE`: 4096 addressable bytes (R6, R50). -/
abbrev memSize : Nat := 4096

/-- `STACK_DEPTH`: 16 entries (R6, R33). -/
abbrev stackDepth : Nat := 16

/-- `FONT_BASE`: the font table starts at address 0 (R6, R61). -/
abbrev fontBase : Nat := 0

/-- `GLYPH_HEIGHT`: 5 bytes for each glyph (R6, R57). -/
abbrev glyphHeight : Nat := 5

/-- `LOAD_ADDR`: where the host loads the program (R6, R249). -/
abbrev loadAddr : Nat := 0x200

/-- `RESET_PC` (R6, R20; decision D3, log 1). -/
abbrev resetPc : Word16 := 0x0200#16

/-- FREE VALUE (log 13): the byte the random port answers to request number `n`; every byte is admitted and no relation
between draws holds (R172, R243; U1, D20). Safe. -/
opaque freeRandom (n : Nat) : Byte

/-- FREE VALUE (log 13): whether key `k` is down when the input port answers request number `n` (R242; U5). Safe. -/
opaque freeKeyDown (n : Nat) (k : Nibble) : Bool

/-- FREE VALUE (log 13): the last pressed key the input port reports to request number `n`, if any (R242; U5). Safe. -/
opaque freeLastKey (n : Nat) : Option Nibble

/-- FREE VALUE (log 13): the collision answer of the display port to request number `n` (R240; U4, D22). Safe. -/
opaque freeCollision (n : Nat) : Bool

end Sys2Proof.Config
end

