-- ==== Sys2Proof/Machine/State.lean ====
section
/-! DEFINITION. The state of the machine as plain data: the tuple of 10_state.md R20, beside it the state of the
peripherals at the core's ports (60_exceptions.md R239 to R248), the three faults, and the state after reset (R20, R270). -/

namespace Sys2Proof.Machine

/-- Memory: the cells that differ from their reset contents, addresses strictly rising (`Memory.wf` in Ops). -/
abbrev Memory := List Host.Cell

/-- The input peripheral as signals (R242): bit `k` of `keys` is 1 when key `k` is down; `last` is the last pressed key. -/
structure Keypad where
  keys : BitVec 16
  last : Option Nibble
  deriving DecidableEq, Repr

/-- The reference display (R248): a pixel buffer, row by row, `true` for a set pixel. -/
structure Display where
  width  : Nat
  height : Nat
  pixels : List Bool
  deriving DecidableEq, Repr

/-- A request on the display port (R240, R241). -/
inductive DisplayRequest where
  /-- `DrawSprite(x, y, rows)`, issued by `DRW`. -/
  | drawSprite (x y : Byte) (rows : List Byte)
  /-- `ClearDisplay()`, issued by `CLS`. -/
  | clear
  deriving DecidableEq, Repr

/-- The peripherals at the core's ports. This is not core state (R39): it is what the core's requests meet. Where nothing is
attached a port answers with a free value of `Config` (log 13, log 14). -/
structure Ports where
  /-- THE MODEL'S OWN: how many requests have been answered, the index of the next free value (log 13). -/
  answered    : Nat
  /-- The attached random source: the bytes it will answer, in order (R243, R250). -/
  randomBytes : List Byte
  /-- The attached keypad, if any (R242). -/
  keypad      : Option Keypad
  /-- The attached reference display, if any (R248). -/
  display     : Option Display
  /-- THE MODEL'S OWN: the display requests issued so far, newest first (log 27). -/
  displayLog  : List DisplayRequest
  deriving DecidableEq, Repr

/-- The state of the machine. -/
structure State where
  /-- General registers `V[0]` to `V[15]` (R21). `V[15]` is not the flag (R22). -/
  v     : Vector Byte 16
  /-- The flag register, 8 bits, 0 or 1 (R26; log 26). -/
  flag  : Byte
  /-- The address register `I` (R30). -/
  i     : Word16
  /-- The program counter (R31). -/
  pc    : Word16
  /-- The stack pointer: the number of occupied entries, 0 to 16 (R33; log 17). -/
  sp    : Fin 17
  /-- The call stack, return addresses (R33). -/
  stack : Vector Word16 16
  /-- The delay timer (R36). -/
  dt    : Byte
  /-- The sound timer (R36). -/
  st    : Byte
  /-- Memory (R50), as the cells that differ from reset. -/
  mem   : Memory
  /-- The peripherals (R39). -/
  ports : Ports
  deriving DecidableEq, Repr

/-- The three faults (R220), the results a step hands to the host (R225). Each carries the state the faulting step leaves,
which the host may inspect and step again (R226, R227; log 12). -/
inductive Fault where
  /-- An access to an address of 4096 or more (R221). Raised by the fetch, `DRW`, `LD B, Vx`, `LD [I], Vx`, `LD Vx, [I]`.
  Safe: the spec names this fault. -/
  | outOfBounds (left : State)
  /-- A push on the full stack (R222). Raised by `CALL` only. Safe: the spec names this fault. -/
  | stackOverflow (left : State)
  /-- A pop from the empty stack (R223). Raised by `RET` only. Safe: the spec names this fault. -/
  | stackUnderflow (left : State)
  deriving DecidableEq, Repr

/-- Why the model gives an instruction no meaning. -/
inductive Refusal where
  /-- An arm of `exec` without a meaning; no arm of this model answers it. Safe: the model stops. -/
  | notModelled (mnemonic : String)
  deriving DecidableEq, Repr

/-- No peripheral attached, no request answered or issued (DESIGN CHOICE, log 13, log 14, log 27). -/
def Ports.initial : Ports :=
  { answered := 0, randomBytes := [], keypad := none, display := none, displayLog := [] }

/-- The machine right after reset (R20, R270; decisions D3, D4, D26, log 1, log 2). Memory lists nothing: it holds the font
table at 0 to 79 and 0 elsewhere. No program is loaded. -/
def State.reset : State :=
  { v := Vector.replicate 16 0#8, flag := 0#8, i := 0#16, pc := Config.resetPc, sp := 0,
    stack := Vector.replicate 16 0#16, dt := 0#8, st := 0#8, mem := [], ports := Ports.initial }

end Sys2Proof.Machine
end

