-- ==== Sys2Proof/Machine/Ops.lean ====
section
/-! DEFINITION. The named operations over registers, memory and the call stack, and the one operation that raises a fault
(00_scope.md R10, 10_state.md, 20_memory.md, 60_exceptions.md). -/

namespace Sys2Proof.Machine

/-! ## The font table (R57, R58, R61, R62) -/

/-- The 80 glyph bytes of R62. PRESUMED: the spec's general knowledge G2 (log 3); no claim rests on a particular byte. -/
def fontTable : List Byte :=
  [0xF0, 0x90, 0x90, 0x90, 0xF0,
   0x20, 0x60, 0x20, 0x20, 0x70,
   0xF0, 0x10, 0xF0, 0x80, 0xF0,
   0xF0, 0x10, 0xF0, 0x10, 0xF0,
   0x90, 0x90, 0xF0, 0x10, 0x10,
   0xF0, 0x80, 0xF0, 0x10, 0xF0,
   0xF0, 0x80, 0xF0, 0x90, 0xF0,
   0xF0, 0x10, 0x20, 0x40, 0x40]
  ++
  [0xF0, 0x90, 0xF0, 0x90, 0xF0,
   0xF0, 0x90, 0xF0, 0x10, 0xF0,
   0xF0, 0x90, 0xF0, 0x90, 0x90,
   0xE0, 0x90, 0xE0, 0x90, 0xE0,
   0xF0, 0x80, 0x80, 0x80, 0xF0,
   0xE0, 0x90, 0x90, 0x90, 0xE0,
   0xF0, 0x80, 0xF0, 0x80, 0xF0,
   0xF0, 0x80, 0xF0, 0x80, 0x80]

/-- The address of a digit's glyph (R57): `base + digit * glyph_height`. -/
def fontGlyphAddress (digit : Nat) : Nat := Config.fontBase + digit * Config.glyphHeight

/-- What an unlisted address reads as: the reset contents, the font table at 0 to 79 and 0 elsewhere (R61, R270). -/
def resetByte (a : Nat) : Byte := fontTable.getD a 0#8

/-! ## Memory as a list of cells -/

/-- The byte at address `a`. -/
def readByte (m : Memory) (a : Nat) : Byte :=
  match m with
  | [] => resetByte a
  | c :: rest => if c.1 = a then c.2 else readByte rest a

/-- Memory without a cell for address `a`. -/
def dropCell (m : Memory) (a : Nat) : Memory := m.filter fun c => c.1 != a

/-- Memory with the cell `(a, b)` before the first higher address. -/
def insertCell (m : Memory) (a : Nat) (b : Byte) : Memory :=
  match m with
  | [] => [(a, b)]
  | c :: rest => if a < c.1 then (a, b) :: c :: rest else c :: insertCell rest a b

/-- Memory with byte `b` at address `a`, in the canonical form again: no cell where `b` is what `a` reads as unlisted. -/
def writeByte (m : Memory) (a : Nat) (b : Byte) : Memory :=
  if b = resetByte a then dropCell m a else insertCell (dropCell m a) a b

/-- The canonical form from address `lo` up: addresses strictly rising, inside memory, no cell equal to its reset contents. -/
def Memory.wfFrom (lo : Nat) (m : Memory) : Bool :=
  match m with
  | [] => true
  | c :: rest =>
    decide (lo ≤ c.1) && decide (c.1 < Config.memSize) && decide (c.2 ≠ resetByte c.1) && Memory.wfFrom (c.1 + 1) rest

/-- Memory is in canonical form: equal memories are equal lists. -/
def Memory.wf (m : Memory) : Bool := Memory.wfFrom 0 m

/-- The byte of the machine's memory at address `a`. -/
def memByte (s : State) (a : Nat) : Byte := readByte s.mem a

/-! ## Faults (R220 to R226) -/

/-- `raise` (R10): the step ends at once; `s` is the state it leaves, with every effect made so far and `PC` not advanced
(R116, R226). Nothing inside the machine handles a fault: no state is saved, control goes to the host (R225, R231). -/
def raise {α : Type} (kind : State → Fault) (s : State) : Except Fault α := .error (kind s)

/-- The state a faulting step leaves (R226). -/
def faultState (f : Fault) : State :=
  match f with
  | .outOfBounds s => s
  | .stackOverflow s => s
  | .stackUnderflow s => s

/-- The step result code of a fault (R224; decision D18); 0 is `Ok`. -/
def faultCode (f : Fault) : Nat :=
  match f with
  | .outOfBounds _ => 1
  | .stackOverflow _ => 2
  | .stackUnderflow _ => 3


/-! ## Memory access (R51 to R55) -/

/-- `MemRead(addr, 1)` (R52): the address is a natural number and never wraps (R55). -/
def memRead (s : State) (a : Nat) : Except Fault Byte :=
  if a < Config.memSize then .ok (memByte s a) else raise .outOfBounds s

/-- `MemWrite(addr, 1, v)` (R53). -/
def memWrite (s : State) (a : Nat) (b : Byte) : Except Fault State :=
  if a < Config.memSize then .ok { s with mem := writeByte s.mem a b } else raise .outOfBounds s

/-- `MemRead(addr, 2)` (R54): two byte reads, high byte first. -/
def memRead2 (s : State) (a : Nat) : Except Fault Word16 :=
  match memRead s a with
  | .error f => .error f
  | .ok hi =>
    match memRead s (a + 1) with
    | .error f => .error f
    | .ok lo => .ok (wordOf hi lo)

/-- The fetch of a step (R111): any alignment, big-endian. -/
def fetchWord (s : State) : Except Fault Word16 := memRead2 s s.pc.toNat

/-- `count` byte reads at ascending addresses from `a` (R64); the first out of range ends the step. -/
def readBytes (s : State) (a count : Nat) : Except Fault (List Byte) :=
  match count with
  | 0 => .ok []
  | k + 1 =>
    match memRead s a with
    | .error f => .error f
    | .ok b =>
      match readBytes s (a + 1) k with
      | .error f => .error f
      | .ok bs => .ok (b :: bs)

/-- Byte writes at ascending addresses from `a` (R64); the first out of range ends the step and the writes before it stay
(R116; decision D17, log 12). Also the host's `load_block` (R56). -/
def storeBytes (s : State) (a : Nat) (bytes : List Byte) : Except Fault State :=
  match bytes with
  | [] => .ok s
  | b :: bs =>
    match memWrite s a b with
    | .error f => .error f
    | .ok s' => storeBytes s' (a + 1) bs

/-! ## Registers (R21 to R31) -/

/-- `V[x]`. -/
def getV (s : State) (x : Nibble) : Byte := s.v[x.toNat]'x.isLt

/-- `V[x] <- b`. -/
def setV (s : State) (x : Nibble) (b : Byte) : State := { s with v := s.v.set x.toNat b x.isLt }

/-- `FLAG <- b`. -/
def setFlag (s : State) (b : Byte) : State := { s with flag := b }

/-- `I <- w`. -/
def setI (s : State) (w : Word16) : State := { s with i := w }

/-- `PC <- w`. -/
def setPc (s : State) (w : Word16) : State := { s with pc := w }

/-- `DT <- b`. -/
def setDT (s : State) (b : Byte) : State := { s with dt := b }

/-- `ST <- b`. -/
def setST (s : State) (b : Byte) : State := { s with st := b }

/-- `next`: the address of the following instruction, `(PC + 2) mod 65536` (R10, R113; decision D7, log 18). -/
def nextPc (s : State) : Word16 := s.pc + 2#16

/-- The advance phase: `PC <- (PC + 2) mod 65536` (R110, R113). -/
def advance (s : State) : State := setPc s (nextPc s)

/-- A skip (R113, R144): `PC <- (PC + 4) mod 65536` when the condition holds, `PC <- (PC + 2) mod 65536` when not. -/
def skipIf (s : State) (c : Bool) : State := setPc s (if c then s.pc + 4#16 else s.pc + 2#16)

/-- `V[k] <- MemRead(a, 1)`, `V[k+1] <- MemRead(a+1, 1)`, … for `count` registers (R209); the first address out of range ends
the step and the registers loaded before it keep their new values (R116; decision D17, log 12). -/
def loadRegsFrom (s : State) (a k count : Nat) : Except Fault State :=
  match count with
  | 0 => .ok s
  | c + 1 =>
    match memRead s a with
    | .error f => .error f
    | .ok b => loadRegsFrom (setV s (BitVec.ofNat 4 k) b) (a + 1) (k + 1) c

/-! ## The call stack (R33, R34) -/

/-- `Push(v)` (R33): the check comes before the write. -/
def push (s : State) (v : Word16) : Except Fault State :=
  if h : s.sp.val < 16 then
    .ok { s with stack := s.stack.set s.sp.val v h, sp := ⟨s.sp.val + 1, Nat.succ_lt_succ h⟩ }
  else raise .stackOverflow s

/-- `Pop()` (R34): the entry read stays in the stack (decision D26). -/
def pop (s : State) : Except Fault (Word16 × State) :=
  match h : s.sp.val with
  | 0 => raise .stackUnderflow s
  | n + 1 =>
    have hn : n < 16 := by have := s.sp.isLt; omega
    .ok (s.stack[n]'hn, { s with sp := ⟨n, Nat.lt_succ_of_lt hn⟩ })

/-! ## A word where the next step fetches it -/

/-- A program counter the fetch can use (R111): `PC` itself, or the load address where `PC` is above 0x0FFE. -/
def fetchablePc (s : State) : Word16 := if s.pc.toNat < Config.memSize - 1 then s.pc else Config.resetPc

/-- Memory with the word's two bytes at `a` and `a + 1`, high byte first (R59). -/
def placeWord (m : Memory) (a : Nat) (w : Word16) : Memory :=
  writeByte (writeByte m a (w.extractLsb' 8 8)) (a + 1) (w.extractLsb' 0 8)

/-- The state whose next step fetches the word `w` (log 24). -/
def placeNextWord (s : State) (w : Word16) : State :=
  { s with pc := fetchablePc s, mem := placeWord s.mem (fetchablePc s).toNat w }

end Sys2Proof.Machine
end

