-- ==== Sys2Proof/Machine/Operands.lean ====
section
/-! DEFINITION. The operand forms (30_encoding.md R83, 47_timer_memory.md R211): register, immediate `kk`, address `nnn`,
indexed target, and the bytes at `I`. -/

namespace Sys2Proof.Machine

/-- A 12-bit operand as a 16-bit address: `zext_16(nnn)` (R83). -/
def addrOperand (nnn : Addr12) : Word16 := nnn.setWidth 16

/-- An 8-bit register value zero-extended to 16 bits: `zext_16(V[x])` (R10). -/
def regOperand16 (s : State) (x : Nibble) : Word16 := (getV s x).setWidth 16

/-- A 4-bit key code as a register value: `zext_8(k)` (R201). -/
def keyOperand (k : Nibble) : Byte := k.setWidth 8

/-- The target of the indexed jump (R171): `zext_16(nnn) + zext_16(V[0])`, not reduced to 12 bits. -/
def indexedTarget (s : State) (nnn : Addr12) : Word16 := addrOperand nnn + regOperand16 s 0#4

/-- The effective address `I + k`: a natural number that never wraps (R55, R211; decision D8, log 19). -/
def memAddr (s : State) (k : Nat) : Nat := s.i.toNat + k

/-- The registers `V[0]` to `V[x]`, in ascending order (R208). -/
def regsUpTo (s : State) (x : Nibble) : List Byte := s.v.toList.take (x.toNat + 1)

/-- The three decimal digits of a byte, hundreds first (R207; decision D28 and general knowledge G3, log 9). -/
def bcdDigits (b : Byte) : List Byte :=
  [BitVec.ofNat 8 (b.toNat / 100), BitVec.ofNat 8 (b.toNat / 10 % 10), BitVec.ofNat 8 (b.toNat % 10)]

/-- The glyph address for a register value, the whole 8-bit value taken (R205; decision D15, log 10). -/
def glyphOperand (b : Byte) : Word16 := BitVec.ofNat 16 (fontGlyphAddress b.toNat)

end Sys2Proof.Machine
end

