-- ==== Sys2Proof/Machine/Ports.lean ====
section
/-! DEFINITION. The requests on the core's ports (60_exceptions.md R239 to R244) and the reference display (R248). A request
is answered inside the step and cannot fail (R239). -/

namespace Sys2Proof.Machine

/-- One request answered: the next free value has the next index (log 13). -/
def countAnswer (s : State) : State := { s with ports := { s.ports with answered := s.ports.answered + 1 } }

/-! ## The random port (R243) -/

/-- `Rand8()`: the next byte of the attached source, or a free byte where none is left. -/
def rand8 (s : State) : Byte × State :=
  match s.ports.randomBytes with
  | b :: rest => (b, countAnswer { s with ports := { s.ports with randomBytes := rest } })
  | [] => (Config.freeRandom s.ports.answered, countAnswer s)

/-! ## The input port (R242) -/

/-- The answer of the input peripheral for a key 0 to 15. -/
def askKey (s : State) (k : Nibble) : Bool :=
  match s.ports.keypad with
  | some kp => kp.keys.getLsbD k.toNat
  | none => Config.freeKeyDown s.ports.answered k

/-- `KeyDown(k)`: for an identifier above 15 the answer is false without asking the peripheral (decision D16, log 11). -/
def keyDown (s : State) (k : Byte) : Bool × State :=
  if 15 < k.toNat then (false, s) else (askKey s (k.setWidth 4), countAnswer s)

/-- `LastKey()`: none, or a key 0 to 15. -/
def lastKey (s : State) : Option Nibble × State :=
  match s.ports.keypad with
  | some kp => (kp.last, countAnswer s)
  | none => (Config.freeLastKey s.ports.answered, countAnswer s)

/-! ## The reference display (R248; geometry and orientation are G6, log 15) -/

/-- A display of the given size with every pixel 0. -/
def Display.blank (width height : Nat) : Display :=
  { width := width, height := height, pixels := List.replicate (width * height) false }

/-- The buffer has one entry for each pixel. -/
def Display.wf (d : Display) : Bool := d.pixels.length == d.width * d.height

/-- `clear`: every pixel 0. -/
def Display.cleared (d : Display) : Display := Display.blank d.width d.height

/-- The place in the buffer of column `c` of sprite row `r` drawn at `(x, y)`, each coordinate reduced modulo the size. -/
def Display.place (d : Display) (x y : Byte) (r c : Nat) : Nat :=
  ((y.toNat + r) % d.height) * d.width + (x.toNat + c) % d.width

/-- The places of the set bits of sprite row `r`: bit `7 - c` is column `c`. -/
def Display.rowPlaces (d : Display) (x y : Byte) (r : Nat) (row : Byte) : List Nat :=
  ((List.range 8).filter fun c => row.getLsbD (7 - c)).map (Display.place d x y r)

/-- The places a sprite inverts, from row `r` down. -/
def Display.spritePlaces (d : Display) (x y : Byte) (r : Nat) (rows : List Byte) : List Nat :=
  match rows with
  | [] => []
  | row :: rest => Display.rowPlaces d x y r row ++ Display.spritePlaces d x y (r + 1) rest

/-- The pixels at the given places inverted one after another, and whether one of them was set before its turn. -/
def invertPixels (pixels : List Bool) (places : List Nat) : List Bool × Bool :=
  match places with
  | [] => (pixels, false)
  | p :: rest =>
    let old := pixels.getD p false
    let r := invertPixels (pixels.set p (!old)) rest
    (r.1, old || r.2)

/-- `draw_sprite(x, y, rows)`: the display after, and the collision answer. -/
def Display.draw (d : Display) (x y : Byte) (rows : List Byte) : Display × Bool :=
  let r := invertPixels d.pixels (Display.spritePlaces d x y 0 rows)
  ({ d with pixels := r.1 }, r.2)

/-! ## The display port (R240, R241) -/

/-- The collision answer where no display is attached: free, but false for a sprite of no rows, which clears no pixel
(R180 corner case 1; decision D21, log 16). -/
def freeCollisionFor (s : State) (rows : List Byte) : Bool :=
  match rows with
  | [] => false
  | _ :: _ => Config.freeCollision s.ports.answered

/-- `DrawSprite(x, y, rows)`: the request is issued and answered. -/
def drawSprite (s : State) (x y : Byte) (rows : List Byte) : Bool × State :=
  let p := { s.ports with answered := s.ports.answered + 1, displayLog := .drawSprite x y rows :: s.ports.displayLog }
  match s.ports.display with
  | some d => ((Display.draw d x y rows).2, { s with ports := { p with display := some (Display.draw d x y rows).1 } })
  | none => (freeCollisionFor s rows, { s with ports := p })

/-- `ClearDisplay()`: the request is issued; there is no answer. -/
def clearDisplay (s : State) : State :=
  { s with ports := { s.ports with
      display := s.ports.display.map Display.cleared, displayLog := .clear :: s.ports.displayLog } }

/-! ## The audio output (R244) -/

/-- `tone`: on exactly when `ST > 0` (decision D32, log 14). -/
def tone (s : State) : Bool := decide (0 < s.st.toNat)

end Sys2Proof.Machine
end

