-- ==== Sys2Proof/Machine/Address.lean ====
section
/-! DEFINITION. The address-register operations (44_address.md). -/

namespace Sys2Proof.Machine

/-- `LD I, nnn` (R170). -/
def execSetAddress (nnn : Addr12) (s : State) : Host.Outcome State Fault Refusal :=
  .next (advance (setI s (addrOperand nnn)))

/-- `JP V0, nnn` (R171). -/
def execJumpIndexed (nnn : Addr12) (s : State) : Host.Outcome State Fault Refusal :=
  .next (setPc s (indexedTarget s nnn))

/-- `RND Vx, kk` (R172): one byte from the random port, masked. -/
def execRandom (x : Nibble) (kk : Byte) (s : State) : Host.Outcome State Fault Refusal :=
  let r := rand8 s
  .next (advance (setV r.2 x (r.1 &&& kk)))

end Sys2Proof.Machine
end

