-- ==== Sys2Proof/Machine/Flags.lean ====
section
/-! DEFINITION. The values of `FLAG` (10_state.md R26, R27; 43_alu.md R156 to R160; 45_display.md R180). -/

namespace Sys2Proof.Machine

/-- The flag register holds 0 or 1 (R26). -/
def flagOf (c : Bool) : Byte := if c then 1#8 else 0#8

/-- `ADD Vx, Vy`: 1 if the 9-bit sum exceeds 255 (R156). -/
def carryFlag (a b : Byte) : Byte := flagOf (decide (255 < a.toNat + b.toNat))

/-- `a - b`: 1 if `b <= a`, no borrow (R157, R158). -/
def noBorrowFlag (a b : Byte) : Byte := flagOf (decide (b.toNat ≤ a.toNat))

/-- `SHR`: bit 0 of the value before the shift (R159). -/
def shiftRightFlag (a : Byte) : Byte := flagOf (a.getLsbD 0)

/-- `SHL`: bit 7 of the value before the shift (R160). -/
def shiftLeftFlag (a : Byte) : Byte := flagOf (a.getLsbD 7)

/-- `DRW`: 1 on a collision (R180). -/
def collisionFlag (c : Bool) : Byte := flagOf c

end Sys2Proof.Machine
end

