-- ==== Sys2Proof/Machine/Alu.lean ====
section
/-! DEFINITION. Register load, arithmetic, logic and shifts (43_alu.md). `x` is the destination and first operand, `y` the
source (R164; decision D29, log 8); the sources are read before anything is written (R165). -/

namespace Sys2Proof.Machine

/-- A result for `V[x]`, `FLAG` left alone (R28), then the advance (R166). -/
def writeResult (x : Nibble) (result : Byte) (s : State) : Host.Outcome State Fault Refusal :=
  .next (advance (setV s x result))

/-- A result for `V[x]` and a value for `FLAG` (R27), then the advance (R166). -/
def writeResultFlag (x : Nibble) (result flag : Byte) (s : State) : Host.Outcome State Fault Refusal :=
  .next (advance (setFlag (setV s x result) flag))

/-- `LD Vx, kk` (R150). -/
def execLoadImm (x : Nibble) (kk : Byte) (s : State) : Host.Outcome State Fault Refusal := writeResult x kk s

/-- `ADD Vx, kk` (R151): modulo 256, no flag. -/
def execAddImm (x : Nibble) (kk : Byte) (s : State) : Host.Outcome State Fault Refusal :=
  writeResult x (getV s x + kk) s

/-- `LD Vx, Vy` (R152; no flag: decision D13, log 20). -/
def execCopy (x y : Nibble) (s : State) : Host.Outcome State Fault Refusal := writeResult x (getV s y) s

/-- `OR Vx, Vy` (R153; no flag: decision D13, log 20). -/
def execOrReg (x y : Nibble) (s : State) : Host.Outcome State Fault Refusal :=
  writeResult x (getV s x ||| getV s y) s

/-- `AND Vx, Vy` (R154; no flag: decision D13, log 20). -/
def execAndReg (x y : Nibble) (s : State) : Host.Outcome State Fault Refusal :=
  writeResult x (getV s x &&& getV s y) s

/-- `XOR Vx, Vy` (R155; no flag: decision D13, log 20). -/
def execXorReg (x y : Nibble) (s : State) : Host.Outcome State Fault Refusal :=
  writeResult x (getV s x ^^^ getV s y) s

/-- `ADD Vx, Vy` (R156). -/
def execAddReg (x y : Nibble) (s : State) : Host.Outcome State Fault Refusal :=
  writeResultFlag x (getV s x + getV s y) (carryFlag (getV s x) (getV s y)) s

/-- `SUB Vx, Vy` (R157). -/
def execSubReg (x y : Nibble) (s : State) : Host.Outcome State Fault Refusal :=
  writeResultFlag x (getV s x - getV s y) (noBorrowFlag (getV s x) (getV s y)) s

/-- `SUBN Vx, Vy` (R158). -/
def execSubRegReverse (x y : Nibble) (s : State) : Host.Outcome State Fault Refusal :=
  writeResultFlag x (getV s y - getV s x) (noBorrowFlag (getV s y) (getV s x)) s

/-- `SHR Vx` (R159): of `V[x]`, `y` unused (decision D14, log 7). -/
def execShiftRight (x _y : Nibble) (s : State) : Host.Outcome State Fault Refusal :=
  writeResultFlag x (getV s x >>> 1) (shiftRightFlag (getV s x)) s

/-- `SHL Vx` (R160): of `V[x]`, `y` unused (decision D14, log 7). -/
def execShiftLeft (x _y : Nibble) (s : State) : Host.Outcome State Fault Refusal :=
  writeResultFlag x (getV s x <<< 1) (shiftLeftFlag (getV s x)) s

end Sys2Proof.Machine
end

