-- ==== Sys2Proof/Machine/Control.lean ====
section
/-! DEFINITION. The control operations (41_control.md). -/

namespace Sys2Proof.Machine

/-- `NOP` (R130): nothing but the advance. -/
def execNoOp (s : State) : Host.Outcome State Fault Refusal := .next (advance s)

/-- `INVALID` (R131): nothing but the advance; no trap. -/
def execInvalidInstruction (s : State) : Host.Outcome State Fault Refusal := .next (advance s)

/-- `CLS` (R132): one `ClearDisplay` request. -/
def execClearDisplay (s : State) : Host.Outcome State Fault Refusal := .next (advance (clearDisplay s))

/-- `RET` (R133): `PC` takes the popped address, with no further increment. -/
def execRet (s : State) : Host.Outcome State Fault Refusal :=
  match pop s with
  | .error f => .fault f
  | .ok (a, s') => .next (setPc s' a)

/-- `JP nnn` (R134). -/
def execJump (nnn : Addr12) (s : State) : Host.Outcome State Fault Refusal := .next (setPc s (addrOperand nnn))

/-- `CALL nnn` (R135): the address of the following instruction is pushed before control goes to the target (R114). -/
def execCall (nnn : Addr12) (s : State) : Host.Outcome State Fault Refusal :=
  match push s (nextPc s) with
  | .error f => .fault f
  | .ok s' => .next (setPc s' (addrOperand nnn))

end Sys2Proof.Machine
end

