-- ==== Sys2Proof/Machine/Draw.lean ====
section
/-! DEFINITION. The display operation (45_display.md). -/

namespace Sys2Proof.Machine

/-- `DRW Vx, Vy, n` (R180): all rows are read before the display is asked; the coordinates are the full register values
(decision D35); the answer goes to `FLAG` (R27, 90_conflicts.md C1). -/
def execDraw (x y n : Nibble) (s : State) : Host.Outcome State Fault Refusal :=
  match readBytes s (memAddr s 0) n.toNat with
  | .error f => .fault f
  | .ok rows =>
    let r := drawSprite s (getV s x) (getV s y) rows
    .next (advance (setFlag r.2 (collisionFlag r.1)))

end Sys2Proof.Machine
end

