-- ==== Sys2Proof/Machine/Input.lean ====
section
/-! DEFINITION. Input polling (46_input.md). The key identifier is the whole register value (R190). -/

namespace Sys2Proof.Machine

/-- `SKP Vx` (R190). -/
def execSkipKeyDown (x : Nibble) (s : State) : Host.Outcome State Fault Refusal :=
  let d := keyDown s (getV s x)
  .next (skipIf d.2 d.1)

/-- `SKNP Vx` (R191). -/
def execSkipKeyUp (x : Nibble) (s : State) : Host.Outcome State Fault Refusal :=
  let d := keyDown s (getV s x)
  .next (skipIf d.2 (!d.1))

end Sys2Proof.Machine
end

