-- ==== Sys2Proof/Machine/Skips.lean ====
section
/-! DEFINITION. The conditional skips (42_skips.md). A skip does not look at the skipped word (R144). -/

namespace Sys2Proof.Machine

/-- `SE Vx, kk` (R140). -/
def execSkipEqImm (x : Nibble) (kk : Byte) (s : State) : Host.Outcome State Fault Refusal :=
  .next (skipIf s (getV s x == kk))

/-- `SNE Vx, kk` (R141). -/
def execSkipNeImm (x : Nibble) (kk : Byte) (s : State) : Host.Outcome State Fault Refusal :=
  .next (skipIf s (getV s x != kk))

/-- `SE Vx, Vy` (R142). -/
def execSkipEqReg (x y : Nibble) (s : State) : Host.Outcome State Fault Refusal :=
  .next (skipIf s (getV s x == getV s y))

/-- `SNE Vx, Vy` (R143). -/
def execSkipNeReg (x y : Nibble) (s : State) : Host.Outcome State Fault Refusal :=
  .next (skipIf s (getV s x != getV s y))

end Sys2Proof.Machine
end

