-- ==== Sys2Proof/Machine/TimerMemory.lean ====
section
/-! DEFINITION. The timer, key-wait, address-register and memory transfer operations of family F (47_timer_memory.md).
None writes `FLAG`; the transfers leave `I` unchanged (R210). -/

namespace Sys2Proof.Machine

/-- `LD Vx, DT` (R200). -/
def execReadDelay (x : Nibble) (s : State) : Host.Outcome State Fault Refusal := .next (advance (setV s x s.dt))

/-- `LD Vx, K` (R201): with no key reported the step ends where it began and the instruction is executed again; with a key
reported its value is stored. A complete step either way (R283, 90_conflicts.md C6). -/
def execWaitKey (x : Nibble) (s : State) : Host.Outcome State Fault Refusal :=
  match lastKey s with
  | (none, s') => .next s'
  | (some k, s') => .next (advance (setV s' x (keyOperand k)))

/-- `LD DT, Vx` (R202). -/
def execSetDelay (x : Nibble) (s : State) : Host.Outcome State Fault Refusal := .next (advance (setDT s (getV s x)))

/-- `LD ST, Vx` (R203). -/
def execSetSound (x : Nibble) (s : State) : Host.Outcome State Fault Refusal := .next (advance (setST s (getV s x)))

/-- `ADD I, Vx` (R204): modulo 65536, no flag, not checked against the memory size. -/
def execAddAddress (x : Nibble) (s : State) : Host.Outcome State Fault Refusal :=
  .next (advance (setI s (s.i + regOperand16 s x)))

/-- `LD F, Vx` (R205). -/
def execFontAddress (x : Nibble) (s : State) : Host.Outcome State Fault Refusal :=
  .next (advance (setI s (glyphOperand (getV s x))))

/-- The advance after a transfer that did not fault. -/
def finishTransfer (r : Except Fault State) : Host.Outcome State Fault Refusal :=
  match r with
  | .ok s => .next (advance s)
  | .error f => .fault f

/-- `LD B, Vx` (R207): hundreds, tens and ones at `I`, `I + 1`, `I + 2`. -/
def execStoreBcd (x : Nibble) (s : State) : Host.Outcome State Fault Refusal :=
  finishTransfer (storeBytes s (memAddr s 0) (bcdDigits (getV s x)))

/-- `LD [I], Vx` (R208): `V[0]` to `V[x]` at ascending addresses from `I`. -/
def execStoreRegs (x : Nibble) (s : State) : Host.Outcome State Fault Refusal :=
  finishTransfer (storeBytes s (memAddr s 0) (regsUpTo s x))

/-- `LD Vx, [I]` (R209): `V[0]` to `V[x]` from ascending addresses from `I`. -/
def execLoadRegs (x : Nibble) (s : State) : Host.Outcome State Fault Refusal :=
  finishTransfer (loadRegsFrom s (memAddr s 0) 0 (x.toNat + 1))

end Sys2Proof.Machine
end

