-- ==== Sys2Proof/Machine/Dispatch.lean ====
section
/-! DEFINITION. The apply and advance phases of every operation (40_step_cycle.md R110): one arm per constructor. -/

namespace Sys2Proof.Machine

def exec (i : Instr) (s : State) : Host.Outcome State Fault Refusal :=
  match i with
  | .noOp => Sys2Proof.Machine.execNoOp s
  | .invalidInstruction => Sys2Proof.Machine.execInvalidInstruction s
  | .clearDisplay => Sys2Proof.Machine.execClearDisplay s
  | .ret => Sys2Proof.Machine.execRet s
  | .jump nnn => Sys2Proof.Machine.execJump nnn s
  | .call nnn => Sys2Proof.Machine.execCall nnn s
  | .skipEqImm x kk => Sys2Proof.Machine.execSkipEqImm x kk s
  | .skipNeImm x kk => Sys2Proof.Machine.execSkipNeImm x kk s
  | .skipEqReg x y => Sys2Proof.Machine.execSkipEqReg x y s
  | .skipNeReg x y => Sys2Proof.Machine.execSkipNeReg x y s
  | .loadImm x kk => Sys2Proof.Machine.execLoadImm x kk s
  | .addImm x kk => Sys2Proof.Machine.execAddImm x kk s
  | .copy x y => Sys2Proof.Machine.execCopy x y s
  | .orReg x y => Sys2Proof.Machine.execOrReg x y s
  | .andReg x y => Sys2Proof.Machine.execAndReg x y s
  | .xorReg x y => Sys2Proof.Machine.execXorReg x y s
  | .addReg x y => Sys2Proof.Machine.execAddReg x y s
  | .subReg x y => Sys2Proof.Machine.execSubReg x y s
  | .subRegReverse x y => Sys2Proof.Machine.execSubRegReverse x y s
  | .shiftRight x y => Sys2Proof.Machine.execShiftRight x y s
  | .shiftLeft x y => Sys2Proof.Machine.execShiftLeft x y s
  | .setAddress nnn => Sys2Proof.Machine.execSetAddress nnn s
  | .jumpIndexed nnn => Sys2Proof.Machine.execJumpIndexed nnn s
  | .random x kk => Sys2Proof.Machine.execRandom x kk s
  | .draw x y n => Sys2Proof.Machine.execDraw x y n s
  | .skipKeyDown x => Sys2Proof.Machine.execSkipKeyDown x s
  | .skipKeyUp x => Sys2Proof.Machine.execSkipKeyUp x s
  | .readDelay x => Sys2Proof.Machine.execReadDelay x s
  | .waitKey x => Sys2Proof.Machine.execWaitKey x s
  | .setDelay x => Sys2Proof.Machine.execSetDelay x s
  | .setSound x => Sys2Proof.Machine.execSetSound x s
  | .addAddress x => Sys2Proof.Machine.execAddAddress x s
  | .fontAddress x => Sys2Proof.Machine.execFontAddress x s
  | .storeBcd x => Sys2Proof.Machine.execStoreBcd x s
  | .storeRegs x => Sys2Proof.Machine.execStoreRegs x s
  | .loadRegs x => Sys2Proof.Machine.execLoadRegs x s

end Sys2Proof.Machine
end

