-- ==== Sys2Proof/Machine/Step.lean ====
section
/-! DEFINITION. The step cycle (40_step_cycle.md R110): fetch, decode, apply, advance. -/

namespace Sys2Proof.Machine

/-- `step` (R110): a failing fetch never reaches decode or apply (R111); the decoder reads no state and cannot fail (R112). -/
def step (s : State) : Host.Outcome State Fault Refusal :=
  match fetchWord s with
  | .error f => .fault f
  | .ok w => exec (decodeWord w) s

/-- The state whose next step fetches and runs the instruction whose bits are `w`, numbered as spec/opcode_table.json numbers
them. `PC` moves to the load address only where no fetch is possible at `PC` (log 24). -/
def State.withFetchWord (s : State) (nbits w : Nat) : State := placeNextWord s (BitVec.ofNat 16 (w % 2 ^ nbits))

end Sys2Proof.Machine
end

