-- ==== Sys2Proof/Machine/Agents.lean ====
section
/-! DEFINITION. The other agents (00_scope.md R7): the timer agent, the input peripheral and the host. They act between two
steps only, never inside one (R65; decision D2, log 22). -/

namespace Sys2Proof.Machine

/-! ## The timer agent (R245) -/

/-- One down, and zero stays zero (R245; decision D19 and general knowledge G7, log 21). -/
def countDown (b : Byte) : Byte := if b = 0#8 then 0#8 else b - 1#8

/-- `tick`: both timers count down. -/
def tick (s : State) : State := { s with dt := countDown s.dt, st := countDown s.st }

/-! ## The host (R250) -/

/-- `load_block(start, bytes)` (R56): sequential writes, the bytes before a failing one stay written. -/
def loadBlock (s : State) (start : Nat) (bytes : List Byte) : Except Fault State := storeBytes s start bytes

/-- The program loader (R249): the bytes at 0x200. -/
def loadProgram (s : State) (bytes : List Byte) : Except Fault State := loadBlock s Config.loadAddr bytes

/-- `load_font_table()` (R58). -/
def loadFontTable (s : State) : Except Fault State := loadBlock s Config.fontBase fontTable

/-- Reset (R270): every piece of core state at its reset value; the peripherals are not reset (R271). -/
def hostReset (s : State) : State := { State.reset with ports := s.ports }

/-- What an agent other than the core may do between two steps, and the step itself. -/
inductive Action where
  /-- The core's step (R247). -/
  | step
  /-- The timer agent's tick (R245). -/
  | tick
  /-- Reset (R270). -/
  | reset
  /-- Load a block of bytes (R56, R249). -/
  | loadBlock (start : Nat) (bytes : List Byte)
  /-- Load the font table again (R58). -/
  | loadFontTable
  /-- Write `DT` (R250). -/
  | writeDT (b : Byte)
  /-- Write `ST` (R250). -/
  | writeST (b : Byte)
  /-- Write a general register before a run (R250). -/
  | writeV (x : Nibble) (b : Byte)
  /-- Write `FLAG` before a run, with 0 or 1 only (R250, R251). -/
  | writeFlag (c : Bool)
  /-- Write `I` before a run (R250). -/
  | writeI (w : Word16)
  /-- Write `PC` before a run (R250). -/
  | writePC (w : Word16)
  /-- Write `SP` before a run, 0 to 16 only (R250, R251). -/
  | writeSP (n : Fin 17)
  /-- Write a stack entry before a run (R250). -/
  | writeStack (j : Fin 16) (w : Word16)
  /-- Write a memory byte before a run (R250). -/
  | writeMem (a : Nat) (b : Byte)
  /-- Attach a random source that answers these bytes (R243, R250). -/
  | attachRandom (bytes : List Byte)
  /-- The input peripheral changes its keys, or leaves its answers open (R7, R242). -/
  | setKeypad (keypad : Option Keypad)
  /-- Attach a reference display of this size, cleared (R248, R273). -/
  | attachDisplay (width height : Nat)
  /-- Leave the display's answers open (R240). -/
  | detachDisplay
  deriving DecidableEq, Repr

/-- The outcome of a host operation that may fail. -/
def hostOutcome (r : Except Fault State) : Host.Outcome State Fault Refusal :=
  match r with
  | .ok s => .next s
  | .error f => .fault f

/-- What an action does to the machine. -/
def act (a : Action) (s : State) : Host.Outcome State Fault Refusal :=
  match a with
  | .step => step s
  | .tick => .next (tick s)
  | .reset => .next (hostReset s)
  | .loadBlock start bytes => hostOutcome (loadBlock s start bytes)
  | .loadFontTable => hostOutcome (loadFontTable s)
  | .writeDT b => .next (setDT s b)
  | .writeST b => .next (setST s b)
  | .writeV x b => .next (setV s x b)
  | .writeFlag c => .next (setFlag s (if c then 1#8 else 0#8))
  | .writeI w => .next (setI s w)
  | .writePC w => .next (setPc s w)
  | .writeSP n => .next { s with sp := n }
  | .writeStack j w => .next { s with stack := s.stack.set j.val w j.isLt }
  | .writeMem a b => hostOutcome (memWrite s a b)
  | .attachRandom bytes => .next { s with ports := { s.ports with randomBytes := bytes } }
  | .setKeypad keypad => .next { s with ports := { s.ports with keypad := keypad } }
  | .attachDisplay width height => .next { s with ports := { s.ports with display := some (Display.blank width height) } }
  | .detachDisplay => .next { s with ports := { s.ports with display := none } }

/-- A schedule of actions, up to the first fault (R227: a fault ends the run; what follows is the host's choice). -/
def runActions (actions : List Action) (s : State) : Host.Outcome State Fault Refusal :=
  match actions with
  | [] => .next s
  | a :: rest =>
    match act a s with
    | .next s' => runActions rest s'
    | .fault f => .fault f
    | .refused r => .refused r

end Sys2Proof.Machine
end

