-- ==== Sys2Proof/Safety.lean ====
section
/-! DEFINITION. What counts as a safe run, and the words claims are stated in: what two states have in common, when an
operation's accesses are allowed, the invariants, and what is hidden when a register must not matter. -/

namespace Sys2Proof.Machine

/-! ## What an instruction leaves alone -/

/-- Every general register reads as before. -/
def SameRegs (s t : State) : Prop := ∀ r : Nibble, getV t r = getV s r

/-- Every general register but `V[x]` reads as before. -/
def SameRegsBut (x : Nibble) (s t : State) : Prop := ∀ r : Nibble, r ≠ x → getV t r = getV s r

/-- Every byte of memory reads as before. -/
def SameMem (s t : State) : Prop := ∀ a : Nat, memByte t a = memByte s a

/-- The stack pointer and every stack entry are as before. -/
def SameStack (s t : State) : Prop := t.sp = s.sp ∧ t.stack = s.stack

/-- Both timers are as before. -/
def SameTimers (s t : State) : Prop := t.dt = s.dt ∧ t.st = s.st

/-- No request was issued or answered on a port. -/
def SamePorts (s t : State) : Prop := t.ports = s.ports

/-- The flag, `I`, the stack, the timers and memory are as before (everything but registers, `PC` and ports). -/
def SameFlagAddressStackTimersMem (s t : State) : Prop :=
  t.flag = s.flag ∧ t.i = s.i ∧ SameStack s t ∧ SameTimers s t ∧ SameMem s t

/-- `I`, the stack, the timers, memory and the ports are as before: what no operation of 43_alu.md changes (R166). -/
def SameAddressStackTimersMemPorts (s t : State) : Prop :=
  t.i = s.i ∧ SameStack s t ∧ SameTimers s t ∧ SameMem s t ∧ SamePorts s t

/-- `PC` moved on by one instruction width (R113). -/
def PcAdvanced (s t : State) : Prop := t.pc.toNat = (s.pc.toNat + 2) % 65536

/-- `PC` moved on by two instruction widths if `c`, by one if not (R113, R144). -/
def PcSkippedIf (c : Bool) (s t : State) : Prop := t.pc.toNat = (s.pc.toNat + if c then 4 else 2) % 65536

/-- Everything but the ports is the same: the whole core state of 10_state.md R20. -/
def SameCore (s t : State) : Prop := t = { s with ports := t.ports }

/-! ## When a step completes -/

/-- The check of an operation's apply phase (R117, R221 to R223): no other operation can fault there. -/
def accessOk (i : Instr) (s : State) : Prop :=
  match i with
  | .call _ => s.sp.val < 16
  | .ret => 0 < s.sp.val
  | .draw _ _ n => n.toNat = 0 ∨ s.i.toNat + n.toNat ≤ 4096
  | .storeBcd _ => s.i.toNat + 3 ≤ 4096
  | .storeRegs x => s.i.toNat + (x.toNat + 1) ≤ 4096
  | .loadRegs x => s.i.toNat + (x.toNat + 1) ≤ 4096
  | _ => True

/-- The word at `PC`: the byte at `PC` in bits 15 to 8, the byte at `PC + 1` in bits 7 to 0 (R54, R111). -/
def wordAtPc (s : State) : Word16 := wordOf (memByte s s.pc.toNat) (memByte s (s.pc.toNat + 1))

/-- The step from `t` fetches and runs the word at the two bytes after the instruction at `s.pc`, and each of these bytes `b`,
at its address `a`, is as `byteAt a b` says (R70). -/
def NextWordIs (s t : State) (byteAt : Nat → Byte → Prop) : Prop :=
  ∃ hi lo : Byte, fetchWord t = .ok (wordOf hi lo) ∧ step t = exec (decodeWord (wordOf hi lo)) t ∧
    byteAt (s.pc.toNat + 2) hi ∧ byteAt (s.pc.toNat + 3) lo

/-- A run of `n` steps of the core meets no fault. -/
def SafeRun (n : Nat) (s : State) : Prop := ∃ t, Sys2Proof.core.run n s = .next t

/-- The program has finished (R275; decision D25, log 32): the word at `PC` is a jump to that same address. -/
def Finished (s : State) : Prop :=
  s.pc.toNat < 4095 ∧ ∃ nnn : Addr12, decodeWord (wordAtPc s) = .jump nnn ∧ nnn.toNat = s.pc.toNat

/-- A run of calls, one after another, up to the first that does not complete. -/
def callEach (targets : List Addr12) (s : State) : Host.Outcome State Fault Refusal :=
  match targets with
  | [] => .next s
  | nnn :: rest =>
    match exec (.call nnn) s with
    | .next t => callEach rest t
    | .fault f => .fault f
    | .refused r => .refused r

/-! ## The pixels of the reference display (R248; G6, log 15) -/

/-- The pixel at column `col` of line `line`: the buffer lists the lines downward, each from column 0 (log 15). -/
def Display.pixel (d : Display) (col line : Nat) : Bool := d.pixels.getD (line * d.width + col) false

/-- Column `c` of sprite row `r` is to be inverted: bit `7 - c` of the row is 1. -/
def spriteBit (rows : List Byte) (r c : Nat) : Bool := (rows.getD r 0#8).getLsbD (7 - c)

/-- The sprite's set bits, as row and column, that fall on the pixel at column `col` of line `line` when the sprite is drawn
at `(x, y)`: row `r` on line `(y + r) mod height`, column `c` on column `(x + c) mod width`. -/
def spriteHits (d : Display) (x y : Byte) (rows : List Byte) (col line : Nat) : List (Nat × Nat) :=
  (List.range rows.length).flatMap fun r =>
    ((List.range 8).filter fun c =>
      spriteBit rows r c && (x.toNat + c) % d.width == col && (y.toNat + r) % d.height == line).map fun c => (r, c)

/-! ## Invariants -/

/-- `FLAG` is 0 or 1 (R26, R251; log 26), memory is in canonical form, and an attached display has one entry for each pixel. -/
def Inv (s : State) : Prop :=
  s.flag.toNat ≤ 1 ∧ Memory.wf s.mem = true ∧ ∀ d, s.ports.display = some d → Display.wf d = true

/-- `PC` is one a step can produce from a `PC` that can be fetched from (R32), and no occupied stack entry is above 0x1000. -/
def PcBounded (s : State) : Prop :=
  s.pc.toNat ≤ 0x10FE ∧ ∀ j : Fin 16, j.val < s.sp.val → (s.stack[j.val]'j.isLt).toNat ≤ 0x1000

/-! ## Hiding a register -/

/-- An outcome with every state in it changed by `g`, the faulted states too. -/
def mapOutcome (g : State → State) (o : Host.Outcome State Fault Refusal) : Host.Outcome State Fault Refusal :=
  match o with
  | .next s => .next (g s)
  | .fault (.outOfBounds s) => .fault (.outOfBounds (g s))
  | .fault (.stackOverflow s) => .fault (.stackOverflow (g s))
  | .fault (.stackUnderflow s) => .fault (.stackUnderflow (g s))
  | .refused r => .refused r

/-- The state with `FLAG` hidden. -/
def hideFlag (s : State) : State := { s with flag := 0#8 }

/-- The state with `ST` hidden. -/
def hideST (s : State) : State := { s with st := 0#8 }

/-- The operations that write `FLAG`, exactly six (R27). -/
def writesFlag (i : Instr) : Bool :=
  match i with
  | .addReg _ _ | .subReg _ _ | .subRegReverse _ _ | .shiftRight _ _ | .shiftLeft _ _ | .draw _ _ _ => true
  | _ => false

end Sys2Proof.Machine
end

