-- ==== Sys2Proof/Certificates/Slice0/Obligations.lean ====
section
/-! DEFINITION. The statements for the provers. Each docstring names the rule of spec/ it formalises. The encoding line of an
instruction rule refers to 30_encoding.md R86, general knowledge G1 (log 4), and is stated apart, in the encoding statements.
Wherever `PcAdvanced` or `PcSkippedIf` stands, the wrap of `PC` at 65536 is decision D7 (log 18); wherever an operation has `x`
and `y`, that `x` names the destination is decision D29, G4 (log 8). -/

open Sys2Proof Sys2Proof.Machine

/-! ## Encoding (30_encoding.md) -/

/-- R86, R102: every operand of every operation is recovered from its encoded bytes, whatever bytes follow. The numbers are
the spec's general knowledge G1 (log 4) and the word chosen for `INVALID` is the model's (log 23). -/
def Obligations.DecodeRecoversEncodedInstruction : Prop :=
  ∀ (i : Instr) (rest : List Byte), decode (encodeBytes i ++ rest) = .ok (i, rest)

/-- R97: the decoder agrees with the opcode table on every word: a word that a row takes decodes to that row's operation with
the fields of R81, and a word no row takes decodes to `INVALID`. Rests on G1 (log 4), D9 (log 5), D10 (log 6). -/
def Obligations.DecoderAgreesWithOpcodeTable : Prop :=
  ∀ w : Word16,
    (∀ r ∈ opcodeRows, r.takes w → decodeWord w = r.instr w) ∧
    ((∀ r ∈ opcodeRows, ¬ r.takes w) → decodeWord w = .invalidInstruction)

/-- R94: exactly which words are invalid, family by family; no word of family 9 is. Rests on G1 (log 4), D9 (log 5), D10
(log 6). -/
def Obligations.InvalidWordsAreExactlyThose : Prop :=
  ∀ w : Word16, decodeWord w = .invalidInstruction ↔
    (opOf w = 0x0#4 ∧ kkOf w ∉ [0x00#8, 0xE0#8, 0xEE#8]) ∨
    (opOf w = 0x5#4 ∧ nOf w ≠ 0x0#4) ∨
    (opOf w = 0x8#4 ∧ nOf w ∈ [0x8#4, 0x9#4, 0xA#4, 0xB#4, 0xC#4, 0xD#4, 0xF#4]) ∨
    (opOf w = 0xE#4 ∧ kkOf w ∉ [0x9E#8, 0xA1#8]) ∨
    (opOf w = 0xF#4 ∧ kkOf w ∉ [0x07#8, 0x0A#8, 0x15#8, 0x18#8, 0x1E#8, 0x29#8, 0x33#8, 0x55#8, 0x65#8])

/-- R102: the decoder's wires carry a well-formed bundle on every word, and the bundle is the operation. The tag's numbering is
the row number of R86 (log 33). -/
def Obligations.DecoderBundleIsTheOperation : Prop :=
  ∀ w : Word16, (decodeBundle w).wellFormed = true ∧ (decodeBundle w).instr? = some (decodeWord w)

/-- R98: the words the source itself gives: `0xA351`, `0xD351` and the four that must be invalid. A sanity statement. -/
def Obligations.SourceWordsDecodeAsTheSourceSays : Prop :=
  decodeWord 0xA351#16 = .setAddress 0x351#12 ∧ decodeWord 0xD351#16 = .draw 3#4 5#4 1#4 ∧
    decodeWord 0x5001#16 = .invalidInstruction ∧ decodeWord 0x8009#16 = .invalidInstruction ∧
    decodeWord 0xE000#16 = .invalidInstruction ∧ decodeWord 0xF000#16 = .invalidInstruction

/-! ## The step (40_step_cycle.md, 20_memory.md) -/

/-- R110: where the two bytes at `PC` decode to an instruction, the step is that instruction's meaning; nothing is added around
it, since `exec` holds the apply and the advance phase. -/
def Obligations.StepRunsTheDecodedInstruction : Prop :=
  ∀ (s : State) (i : Instr), s.pc.toNat + 1 < 4096 →
    decode [memByte s s.pc.toNat, memByte s (s.pc.toNat + 1)] = .ok (i, []) → step s = exec i s

/-- R111: the fetch is big-endian at any alignment (decision D34, log 30); it faults exactly when `PC >= 0x0FFF` (decision D27,
90_conflicts.md C2, log 19), and then the whole state is as it was. -/
def Obligations.FetchFaultsExactlyPastMemory : Prop :=
  ∀ s : State,
    (s.pc.toNat < 0x0FFF →
      ∃ w, fetchWord s = .ok w ∧
        w.toNat = (memByte s s.pc.toNat).toNat * 256 + (memByte s (s.pc.toNat + 1)).toNat) ∧
    (0x0FFF ≤ s.pc.toNat → step s = .fault (.outOfBounds s))

/-- R117, R220 to R223: an operation completes exactly when its own check passes, and no operation is refused. All 36
operations. That the sixteenth call completes is decision D5, 90_conflicts.md C3 (log 17); that an address never wraps is
decision D8 (log 19). -/
def Obligations.ExecCompletesExactlyWhenAccessOk : Prop :=
  ∀ (i : Instr) (s : State), ((∃ t, exec i s = .next t) ↔ accessOk i s) ∧ ∀ r : Refusal, exec i s ≠ .refused r

/-- R221: the steps that end in `OutOfBounds`, exactly. The fetch's boundary is decision D27, 90_conflicts.md C2, and that an
address never wraps is decision D8 (log 19). -/
def Obligations.OutOfBoundsExactlyWhen : Prop :=
  ∀ s : State, (∃ u, step s = .fault (.outOfBounds u)) ↔
    (0x0FFF ≤ s.pc.toNat ∨
      (s.pc.toNat < 0x0FFF ∧
        match decodeWord (wordAtPc s) with
        | .draw _ _ n => 0 < n.toNat ∧ 4096 ≤ s.i.toNat + n.toNat - 1
        | .storeBcd _ => 4096 ≤ s.i.toNat + 2
        | .storeRegs x => 4096 ≤ s.i.toNat + x.toNat
        | .loadRegs x => 4096 ≤ s.i.toNat + x.toNat
        | _ => False))

/-- R222: the steps that end in `StackOverflow`, exactly, and the state after. That a push faults at `SP = 16` and not before is
decision D5, 90_conflicts.md C3 (log 17); the fetch's boundary is decision D27 (log 19). -/
def Obligations.StackOverflowExactlyForCallOnFullStack : Prop :=
  ∀ (s u : State), step s = .fault (.stackOverflow u) ↔
    (u = s ∧ s.pc.toNat < 0x0FFF ∧ s.sp.val = 16 ∧ ∃ nnn, decodeWord (wordAtPc s) = .call nnn)

/-- R223: the steps that end in `StackUnderflow`, exactly, and the state after. That `SP` counts the occupied entries, so that 0
is empty, is decision D5 (log 17); the fetch's boundary is decision D27 (log 19). -/
def Obligations.StackUnderflowExactlyForRetOnEmptyStack : Prop :=
  ∀ (s u : State), step s = .fault (.stackUnderflow u) ↔
    (u = s ∧ s.pc.toNat < 0x0FFF ∧ s.sp.val = 0 ∧ decodeWord (wordAtPc s) = .ret)

/-- R116, R226: what any fault leaves: `PC`, `FLAG`, `I`, the stack, the timers and the ports are as before the step; only
`LD [I], Vx` and `LD B, Vx` may have changed memory and only `LD Vx, [I]` registers. Rests on decision D17 (log 12). -/
def Obligations.FaultKeepsAllButPartialTransfer : Prop :=
  ∀ (s : State) (f : Fault), step s = .fault f →
    (faultState f).pc = s.pc ∧ (faultState f).flag = s.flag ∧ (faultState f).i = s.i ∧ SameStack s (faultState f) ∧
    SameTimers s (faultState f) ∧ SamePorts s (faultState f) ∧
    ((∀ x, decodeWord (wordAtPc s) ≠ .storeRegs x) → (∀ x, decodeWord (wordAtPc s) ≠ .storeBcd x) →
      SameMem s (faultState f)) ∧
    ((∀ x, decodeWord (wordAtPc s) ≠ .loadRegs x) → SameRegs s (faultState f))

/-- R227: stepping again after a fault meets the same fault and changes nothing more, unless the partial store changed the
instruction's own two bytes. Rests on decisions D17 and D18 (log 12). -/
def Obligations.FaultRepeats : Prop :=
  ∀ (s : State) (f : Fault), step s = .fault f →
    memByte (faultState f) s.pc.toNat = memByte s s.pc.toNat →
    memByte (faultState f) (s.pc.toNat + 1) = memByte s (s.pc.toNat + 1) →
    ∃ g, step (faultState f) = .fault g ∧ faultCode g = faultCode f ∧ (faultState g).pc = s.pc ∧
      SameRegs (faultState f) (faultState g) ∧ SameMem (faultState f) (faultState g)

/-- R52, R53: a byte read answers the byte and changes nothing, a byte write changes that byte alone, and an address of 4096 or
more is `OutOfBounds` with the state unchanged. -/
def Obligations.ByteAccessMeetsItsContract : Prop :=
  ∀ (s : State) (a : Nat) (b : Byte),
    (a < 4096 → memRead s a = .ok (memByte s a) ∧
      ∃ t, memWrite s a b = .ok t ∧ memRead t a = .ok b ∧ (∀ c, c ≠ a → memByte t c = memByte s c) ∧
        t = { s with mem := t.mem }) ∧
    (4096 ≤ a → memRead s a = .error (.outOfBounds s) ∧ memWrite s a b = .error (.outOfBounds s))

/-- R70: a store is seen by the very next fetch. After `LD [I], Vx` and after `LD B, Vx`, wherever their bytes lie, the next
step fetches and runs the word at `PC + 2`, each of its two bytes being the stored one where the store reached it and the byte
memory held where not. That code is not protected is decision D31 (log 29), that it may stand at an odd address D34 (log 30),
the fetch's boundary D27 (log 19), and the order of the digits D28, G3 (log 9). -/
def Obligations.StoreIsSeenByTheNextFetch : Prop :=
  ∀ (x : Nibble) (s t : State), s.pc.toNat + 3 < 4096 →
    (exec (.storeRegs x) s = .next t → NextWordIs s t fun a b =>
      (∀ r : Nibble, r.toNat ≤ x.toNat → s.i.toNat + r.toNat = a → b = getV s r) ∧
      (a < s.i.toNat ∨ s.i.toNat + x.toNat < a → b = memByte s a)) ∧
    (exec (.storeBcd x) s = .next t → NextWordIs s t fun a b =>
      (a = s.i.toNat → b.toNat = (getV s x).toNat / 100) ∧
      (a = s.i.toNat + 1 → b.toNat = (getV s x).toNat / 10 % 10) ∧
      (a = s.i.toNat + 2 → b.toNat = (getV s x).toNat % 10) ∧
      (a < s.i.toNat ∨ s.i.toNat + 2 < a → b = memByte s a))

/-! ## Control (41_control.md) -/

/-- R118: `NOP` and `INVALID` are not faults: the step's result is `Ok`, and nothing but `PC` changes. -/
def Obligations.NopAndInvalidOnlyAdvance : Prop :=
  ∀ (i : Instr) (s : State), i = .noOp ∨ i = .invalidInstruction →
    ∃ t, exec i s = .next t ∧ PcAdvanced s t ∧ SameRegs s t ∧ SameFlagAddressStackTimersMem s t ∧ SamePorts s t

/-- R132, R241: `CLS` issues one `ClearDisplay` request, an attached display's buffer is reset (every pixel 0: G6, log 15; the
request list is the model's own field, log 27), nothing else but `PC` changes, and no other operation issues that request. -/
def Obligations.ClsAloneIssuesOneClearRequest : Prop :=
  (∀ s : State, ∃ t, exec .clearDisplay s = .next t ∧ PcAdvanced s t ∧ SameRegs s t ∧
    SameFlagAddressStackTimersMem s t ∧
    t.ports.displayLog = .clear :: s.ports.displayLog ∧
    (∀ d, s.ports.display = some d → ∃ e, t.ports.display = some e ∧ e.width = d.width ∧ e.height = d.height ∧
      e.pixels.length = d.width * d.height ∧ ∀ p ∈ e.pixels, p = false) ∧
    (s.ports.display = none → t.ports.display = none) ∧
    t.ports.keypad = s.ports.keypad ∧ t.ports.randomBytes = s.ports.randomBytes ∧
    t.ports.answered = s.ports.answered) ∧
  (∀ (i : Instr) (s t : State), i ≠ .clearDisplay → exec i s = .next t →
    t.ports.displayLog.count .clear = s.ports.displayLog.count .clear)

/-- R133: `RET` resumes at the popped address with no increment; the entry stays in the stack (decision D26, log 1).
That the entry popped is the one below `SP`, that `SP` falls by one and that it may be 16 rest on decision D5 (log 17). -/
def Obligations.RetResumesAtThePoppedAddress : Prop :=
  ∀ s : State, (0 < s.sp.val →
    ∃ t, exec .ret s = .next t ∧ t.sp.val = s.sp.val - 1 ∧
      (∀ j : Fin 16, j.val + 1 = s.sp.val → t.pc = s.stack[j.val]'j.isLt) ∧
      t.stack = s.stack ∧ SameRegs s t ∧ t.flag = s.flag ∧ t.i = s.i ∧ SameTimers s t ∧ SameMem s t ∧ SamePorts s t) ∧
    (s.sp.val = 0 → exec .ret s = .fault (.stackUnderflow s))

/-- R134: `JP nnn` goes to `nnn` and changes nothing else; a jump to its own address leaves the whole state unchanged. -/
def Obligations.JumpGoesToItsAddress : Prop :=
  ∀ (nnn : Addr12) (s : State),
    ∃ t, exec (.jump nnn) s = .next t ∧ t.pc.toNat = nnn.toNat ∧ SameRegs s t ∧ SameFlagAddressStackTimersMem s t ∧
      SamePorts s t ∧ (nnn.toNat = s.pc.toNat → t = s)

/-- R135: `CALL nnn` pushes the address of the following instruction, then goes to `nnn`; on the full stack it faults with the
whole state unchanged. -/
def Obligations.CallPushesTheFollowingAddress : Prop :=
  ∀ (nnn : Addr12) (s : State), (s.sp.val < 16 →
    ∃ t, exec (.call nnn) s = .next t ∧ t.pc.toNat = nnn.toNat ∧ t.sp.val = s.sp.val + 1 ∧
      (∀ j : Fin 16, j.val = s.sp.val → (t.stack[j.val]'j.isLt).toNat = (s.pc.toNat + 2) % 65536) ∧
      (∀ j : Fin 16, j.val ≠ s.sp.val → t.stack[j.val]'j.isLt = s.stack[j.val]'j.isLt) ∧
      SameRegs s t ∧ t.flag = s.flag ∧ t.i = s.i ∧ SameTimers s t ∧ SameMem s t ∧ SamePorts s t) ∧
    (s.sp.val = 16 → exec (.call nnn) s = .fault (.stackOverflow s))

/-- R281 (a), R114, R133, R135: a `RET` after a `CALL` whose body left the stack as it found it resumes after the `CALL`, with
the stack pointer as before (decision D5, log 17). -/
def Obligations.RetUndoesCall : Prop :=
  ∀ (nnn : Addr12) (s t u : State), exec (.call nnn) s = .next t → SameStack t u →
    ∃ r, exec .ret u = .next r ∧ r.pc.toNat = (s.pc.toNat + 2) % 65536 ∧ r.sp = s.sp

/-- R33, R135: a run of calls completes if and only if the stack has room for all of them (sixteen from the empty stack), and
then the stack pointer counts them. Rests on decision D5 (log 17, 90_conflicts.md C3). -/
def Obligations.CallsNestSixteenDeep : Prop :=
  ∀ (targets : List Addr12) (s : State),
    (s.sp.val + targets.length ≤ 16 ↔ ∃ t, callEach targets s = .next t) ∧
    (∀ t, callEach targets s = .next t → t.sp.val = s.sp.val + targets.length)

/-! ## Skips (42_skips.md) -/

/-- R144 with R140 to R143: each of the four skips adds 4 to `PC` when its condition holds and 2 when not, whatever the skipped
word is, changes nothing else and cannot fault. -/
def Obligations.SkipsMovePcAndNothingElse : Prop :=
  ∀ (x y : Nibble) (kk : Byte) (s : State) (i : Instr) (c : Bool),
    (i, c) ∈ [(Instr.skipEqImm x kk, decide ((getV s x).toNat = kk.toNat)),
      (Instr.skipNeImm x kk, decide ((getV s x).toNat ≠ kk.toNat)),
      (Instr.skipEqReg x y, decide ((getV s x).toNat = (getV s y).toNat)),
      (Instr.skipNeReg x y, decide ((getV s x).toNat ≠ (getV s y).toNat))] →
    ∃ t, exec i s = .next t ∧ PcSkippedIf c s t ∧ SameRegs s t ∧ SameFlagAddressStackTimersMem s t ∧ SamePorts s t

/-! ## Arithmetic and logic (43_alu.md) -/

/-- R150: `LD Vx, kk` writes the constant to `V[x]` and changes nothing else but `PC`; `FLAG` is not written (decision D13,
90_conflicts.md C4, log 20). -/
def Obligations.LoadImmediateWritesTheConstant : Prop :=
  ∀ (x : Nibble) (kk : Byte) (s : State), ∃ t, exec (.loadImm x kk) s = .next t ∧ getV t x = kk ∧
    SameRegsBut x s t ∧ t.flag = s.flag ∧ PcAdvanced s t ∧ SameAddressStackTimersMemPorts s t

/-- R151: `ADD Vx, kk` is modulo 256 and never touches `FLAG`. -/
def Obligations.AddImmediateWrapsAndKeepsFlag : Prop :=
  ∀ (x : Nibble) (kk : Byte) (s : State), ∃ t, exec (.addImm x kk) s = .next t ∧
    (getV t x).toNat = ((getV s x).toNat + kk.toNat) % 256 ∧
    SameRegsBut x s t ∧ t.flag = s.flag ∧ PcAdvanced s t ∧ SameAddressStackTimersMemPorts s t

/-- R152 to R155: copy and the three logic operations, bit by bit; `FLAG` is not written (decision D13, log 20). -/
def Obligations.CopyAndLogicWriteEachBit : Prop :=
  ∀ (x y : Nibble) (s : State) (i : Instr) (op : Bool → Bool → Bool),
    (i = .copy x y ∧ op = fun _ b => b) ∨ (i = .orReg x y ∧ op = fun a b => a || b) ∨
    (i = .andReg x y ∧ op = fun a b => a && b) ∨ (i = .xorReg x y ∧ op = fun a b => a != b) →
    ∃ t, exec i s = .next t ∧
      (∀ j, j < 8 → (getV t x).getLsbD j = op ((getV s x).getLsbD j) ((getV s y).getLsbD j)) ∧
      SameRegsBut x s t ∧ t.flag = s.flag ∧ PcAdvanced s t ∧ SameAddressStackTimersMemPorts s t

/-- R156: `ADD Vx, Vy` writes the low 8 bits of the sum, and `FLAG` is 1 exactly when the sum exceeds 255. -/
def Obligations.AddRegistersWritesSumAndCarry : Prop :=
  ∀ (x y : Nibble) (s : State), ∃ t, exec (.addReg x y) s = .next t ∧
    (getV t x).toNat = ((getV s x).toNat + (getV s y).toNat) % 256 ∧
    t.flag.toNat = (if 255 < (getV s x).toNat + (getV s y).toNat then 1 else 0) ∧
    SameRegsBut x s t ∧ PcAdvanced s t ∧ SameAddressStackTimersMemPorts s t

/-- R157: `SUB Vx, Vy` writes the difference modulo 256, and `FLAG` is 1 exactly when there is no borrow. -/
def Obligations.SubtractWritesDifferenceAndNoBorrow : Prop :=
  ∀ (x y : Nibble) (s : State), ∃ t, exec (.subReg x y) s = .next t ∧
    (getV t x).toNat = ((getV s x).toNat + 256 - (getV s y).toNat) % 256 ∧
    t.flag.toNat = (if (getV s y).toNat ≤ (getV s x).toNat then 1 else 0) ∧
    SameRegsBut x s t ∧ PcAdvanced s t ∧ SameAddressStackTimersMemPorts s t

/-- R158: `SUBN Vx, Vy` writes `V[y] - V[x]` modulo 256 to `V[x]`, and `FLAG` is 1 exactly when there is no borrow. -/
def Obligations.SubtractReverseWritesDifferenceAndNoBorrow : Prop :=
  ∀ (x y : Nibble) (s : State), ∃ t, exec (.subRegReverse x y) s = .next t ∧
    (getV t x).toNat = ((getV s y).toNat + 256 - (getV s x).toNat) % 256 ∧
    t.flag.toNat = (if (getV s x).toNat ≤ (getV s y).toNat then 1 else 0) ∧
    SameRegsBut x s t ∧ PcAdvanced s t ∧ SameAddressStackTimersMemPorts s t

/-- R159: `SHR Vx` halves `V[x]`, `FLAG` is bit 0 before the shift, and `y` does not matter (decision D14, log 7). -/
def Obligations.ShiftRightWritesHalfAndBitOut : Prop :=
  ∀ (x y : Nibble) (s : State), ∃ t, exec (.shiftRight x y) s = .next t ∧
    (getV t x).toNat = (getV s x).toNat / 2 ∧ t.flag.toNat = (getV s x).toNat % 2 ∧
    SameRegsBut x s t ∧ PcAdvanced s t ∧ SameAddressStackTimersMemPorts s t

/-- R160: `SHL Vx` doubles `V[x]` modulo 256, `FLAG` is bit 7 before the shift, and `y` does not matter (decision D14,
log 7). -/
def Obligations.ShiftLeftWritesDoubleAndBitOut : Prop :=
  ∀ (x y : Nibble) (s : State), ∃ t, exec (.shiftLeft x y) s = .next t ∧
    (getV t x).toNat = (getV s x).toNat * 2 % 256 ∧ t.flag.toNat = (getV s x).toNat / 128 ∧
    SameRegsBut x s t ∧ PcAdvanced s t ∧ SameAddressStackTimersMemPorts s t

/-! ## Address register, random (44_address.md, 47_timer_memory.md) -/

/-- R170: `LD I, nnn`, with its encoding, whose family number the source itself gives. -/
def Obligations.SetAddressWritesI : Prop :=
  (∀ w : Word16, w &&& 0xF000#16 = 0xA000#16 → decodeWord w = .setAddress (nnnOf w)) ∧
  ∀ (nnn : Addr12) (s : State), ∃ t, exec (.setAddress nnn) s = .next t ∧ t.i.toNat = nnn.toNat ∧ PcAdvanced s t ∧
    SameRegs s t ∧ t.flag = s.flag ∧ SameStack s t ∧ SameTimers s t ∧ SameMem s t ∧ SamePorts s t

/-- R171: `JP V0, nnn` goes to `nnn + V[0]`, not reduced to 12 bits, and changes nothing else. -/
def Obligations.IndexedJumpAddsV0 : Prop :=
  ∀ (nnn : Addr12) (s : State), ∃ t, exec (.jumpIndexed nnn) s = .next t ∧
    t.pc.toNat = nnn.toNat + (getV s 0#4).toNat ∧ SameRegs s t ∧ SameFlagAddressStackTimersMem s t ∧ SamePorts s t

/-- R204: `ADD I, Vx` is modulo 65536 with no flag and no check. -/
def Obligations.AddAddressWrapsAtSixteenBits : Prop :=
  ∀ (x : Nibble) (s : State), ∃ t, exec (.addAddress x) s = .next t ∧
    t.i.toNat = (s.i.toNat + (getV s x).toNat) % 65536 ∧ PcAdvanced s t ∧
    SameRegs s t ∧ t.flag = s.flag ∧ SameStack s t ∧ SameTimers s t ∧ SameMem s t ∧ SamePorts s t

/-- R205, R57: `LD F, Vx` points `I` at the five glyph bytes; a value above 15 is not masked (decision D15, log 10). -/
def Obligations.FontAddressIsFiveTimesTheDigit : Prop :=
  ∀ (x : Nibble) (s : State), ∃ t, exec (.fontAddress x) s = .next t ∧
    t.i.toNat = 5 * (getV s x).toNat ∧ PcAdvanced s t ∧
    SameRegs s t ∧ t.flag = s.flag ∧ SameStack s t ∧ SameTimers s t ∧ SameMem s t ∧ SamePorts s t

/-- R172, R243: `RND Vx, kk` takes one byte from the random port, the attached source's next byte if there is one (otherwise a
free value, log 13), and masks it with `kk`. -/
def Obligations.RandomIsTheDrawnByteMasked : Prop :=
  ∀ (x : Nibble) (kk : Byte) (s : State), ∃ (r : Byte) (t : State), exec (.random x kk) s = .next t ∧
    getV t x = r &&& kk ∧ getV t x &&& ~~~kk = 0#8 ∧
    (∀ b bs, s.ports.randomBytes = b :: bs → r = b ∧ t.ports.randomBytes = bs) ∧
    (s.ports.randomBytes = [] → r = Config.freeRandom s.ports.answered ∧ t.ports.randomBytes = []) ∧
    t.ports.answered = s.ports.answered + 1 ∧ t.ports.keypad = s.ports.keypad ∧
    t.ports.display = s.ports.display ∧ t.ports.displayLog = s.ports.displayLog ∧
    SameRegsBut x s t ∧ PcAdvanced s t ∧ SameFlagAddressStackTimersMem s t

/-! ## Display (45_display.md) -/

/-- R180: `DRW Vx, Vy, n` reads `n` rows at `I`, issues one request with the full register values and those rows, and writes
the answer to `FLAG`; with no rows the flag is 0 (decision D21, log 16), otherwise an unattached display's answer is a free
value (log 13). Where a row lies past memory it faults with the whole state unchanged (R226); an address never
wraps (decision D8, log 19), and `I` is left as it was (decision D30, log 28). -/
def Obligations.DrawRequestsTheRowsAtI : Prop :=
  ∀ (x y n : Nibble) (s : State), (n.toNat = 0 ∨ s.i.toNat + n.toNat ≤ 4096 →
    ∃ (rows : List Byte) (c : Bool) (t : State), exec (.draw x y n) s = .next t ∧
      rows.length = n.toNat ∧ (∀ k (h : k < rows.length), rows[k] = memByte s (s.i.toNat + k)) ∧
      t.ports.displayLog = .drawSprite (getV s x) (getV s y) rows :: s.ports.displayLog ∧
      t.flag.toNat = (if c then 1 else 0) ∧
      (s.ports.display = none → 0 < n.toNat → c = Config.freeCollision s.ports.answered) ∧
      (s.ports.display = none → t.ports.display = none) ∧
      (∀ d, s.ports.display = some d →
        t.ports.display = some (d.draw (getV s x) (getV s y) rows).1 ∧ c = (d.draw (getV s x) (getV s y) rows).2) ∧
      (n.toNat = 0 → c = false) ∧
      t.ports.answered = s.ports.answered + 1 ∧ t.ports.keypad = s.ports.keypad ∧
      t.ports.randomBytes = s.ports.randomBytes ∧
      PcAdvanced s t ∧ SameRegs s t ∧ t.i = s.i ∧ SameStack s t ∧ SameTimers s t ∧ SameMem s t) ∧
    (0 < n.toNat → 4096 ≤ s.i.toNat + n.toNat - 1 → exec (.draw x y n) s = .fault (.outOfBounds s))

/-- R248, G6 (log 15): on the reference display a sprite inverts a pixel once for each set bit that falls on it, bit `7 - c` of
row `r` falling on column `(x + c) mod width` of line `(y + r) mod height`, and leaves every other pixel as it was; so drawing
it again at the same place restores every pixel. A whole buffer (`Display.wf`) is part of the invariant `Inv`. -/
def Obligations.DrawingTwiceRestoresTheDisplay : Prop :=
  ∀ (d : Display) (x y : Byte) (rows : List Byte),
    ((d.draw x y rows).1.draw x y rows).1 = d ∧
    (d.draw x y rows).1.width = d.width ∧ (d.draw x y rows).1.height = d.height ∧
    (d.wf = true → ∀ col line, col < d.width → line < d.height →
      (d.draw x y rows).1.pixel col line =
        (d.pixel col line != decide ((spriteHits d x y rows col line).length % 2 = 1)))

/-- R248, R240, G6 (log 15): on the reference display the answer is a collision exactly when a set pixel is inverted: a set bit
of the sprite falls on a pixel set before the drawing, or two fall on one pixel (which then is set when one of them meets it).
For a sprite whose set bits fall on different pixels this says: bit `7 - c` of some row `r` is 1 and the pixel at column
`(x + c) mod width` of line `(y + r) mod height` was set. A whole buffer (`Display.wf`) is part of the invariant `Inv`. -/
def Obligations.CollisionMeansASetPixelWasHit : Prop :=
  ∀ (d : Display) (x y : Byte) (rows : List Byte), d.wf = true →
    ((d.draw x y rows).2 = true ↔ ∃ col line, col < d.width ∧ line < d.height ∧
      (1 ≤ (spriteHits d x y rows col line).length ∧ d.pixel col line = true ∨
        2 ≤ (spriteHits d x y rows col line).length)) ∧
    ((∀ col line, col < d.width → line < d.height → (spriteHits d x y rows col line).length ≤ 1) →
      ((d.draw x y rows).2 = true ↔ ∃ r c, r < rows.length ∧ c < 8 ∧ spriteBit rows r c = true ∧
        d.pixel ((x.toNat + c) % d.width) ((y.toNat + r) % d.height) = true))

/-! ## Input (46_input.md, R201) -/

/-- R190, R191, R242: `SKP` skips when the key is down and `SKNP` when it is not; identifiers above 15 are not down (decision
D16, log 11); an attached keypad answers from its key vector, otherwise the answer is a free value (log 13). -/
def Obligations.KeySkipsFollowTheKeypad : Prop :=
  ∀ (x : Nibble) (s : State), ∃ (d : Bool) (t u : State),
    exec (.skipKeyDown x) s = .next t ∧ exec (.skipKeyUp x) s = .next u ∧
    PcSkippedIf d s t ∧ PcSkippedIf (!d) s u ∧
    (15 < (getV s x).toNat → d = false ∧ SamePorts s t ∧ SamePorts s u) ∧
    (∀ kp, s.ports.keypad = some kp → (getV s x).toNat ≤ 15 → d = kp.keys.getLsbD (getV s x).toNat) ∧
    (s.ports.keypad = none → (getV s x).toNat ≤ 15 →
      d = Config.freeKeyDown s.ports.answered (BitVec.ofNat 4 (getV s x).toNat)) ∧
    SameRegs s t ∧ SameFlagAddressStackTimersMem s t ∧ SameRegs s u ∧ SameFlagAddressStackTimersMem s u ∧
    ((getV s x).toNat ≤ 15 → t.ports = { s.ports with answered := s.ports.answered + 1 } ∧ u.ports = t.ports)

/-- R201: with no key reported `LD Vx, K` leaves the whole core state as it was, `PC` included, and with key `k` reported it
stores `k` and advances; the report is the attached keypad's, otherwise a free value (log 13, log 25). -/
def Obligations.WaitKeyWaitsOrStoresTheKey : Prop :=
  ∀ (x : Nibble) (s : State), ∃ (k : Option Nibble) (t : State), exec (.waitKey x) s = .next t ∧
    (∀ kp, s.ports.keypad = some kp → k = kp.last) ∧
    (s.ports.keypad = none → k = Config.freeLastKey s.ports.answered) ∧
    (k = none → SameCore s t) ∧
    (∀ c, k = some c → (getV t x).toNat = c.toNat ∧ PcAdvanced s t ∧ SameRegsBut x s t ∧
      SameFlagAddressStackTimersMem s t) ∧
    t.ports = { s.ports with answered := s.ports.answered + 1 }

/-! ## Timers and memory transfers (47_timer_memory.md) -/

/-- R200: `LD Vx, DT` copies `DT` to `V[x]` and changes nothing else but `PC`. -/
def Obligations.ReadDelayCopiesDT : Prop :=
  ∀ (x : Nibble) (s : State), ∃ t, exec (.readDelay x) s = .next t ∧ getV t x = s.dt ∧ SameRegsBut x s t ∧
    PcAdvanced s t ∧ SameFlagAddressStackTimersMem s t ∧ SamePorts s t

/-- R202, R203, R244: `LD DT, Vx` and `LD ST, Vx`; the tone is on exactly when the value written to `ST` is not 0. -/
def Obligations.TimerLoadsWriteTheirTimer : Prop :=
  ∀ (x : Nibble) (s : State), ∃ t u, exec (.setDelay x) s = .next t ∧ exec (.setSound x) s = .next u ∧
    t.dt = getV s x ∧ t.st = s.st ∧ u.st = getV s x ∧ u.dt = s.dt ∧ tone u = decide ((getV s x).toNat ≠ 0) ∧
    PcAdvanced s t ∧ SameRegs s t ∧ t.flag = s.flag ∧ t.i = s.i ∧ SameStack s t ∧ SameMem s t ∧ SamePorts s t ∧
    PcAdvanced s u ∧ SameRegs s u ∧ u.flag = s.flag ∧ u.i = s.i ∧ SameStack s u ∧ SameMem s u ∧ SamePorts s u

/-- R207: `LD B, Vx` stores three digits whose decimal value is `V[x]`, hundreds first (decision D28, G3, log 9). Where one of
them lies past memory it faults; the digits whose address is in range have been written, and nothing else has changed (R226,
decision D17, log 12). An address never wraps (decision D8, log 19), and `I` stays (decision D30, log 28). -/
def Obligations.BcdStoresThreeDigits : Prop :=
  ∀ (x : Nibble) (s : State), (s.i.toNat + 2 < 4096 → ∃ t, exec (.storeBcd x) s = .next t ∧
      (memByte t s.i.toNat).toNat * 100 + (memByte t (s.i.toNat + 1)).toNat * 10 + (memByte t (s.i.toNat + 2)).toNat =
        (getV s x).toNat ∧
      (memByte t s.i.toNat).toNat ≤ 2 ∧ (memByte t (s.i.toNat + 1)).toNat ≤ 9 ∧ (memByte t (s.i.toNat + 2)).toNat ≤ 9 ∧
      (∀ a, a < s.i.toNat ∨ s.i.toNat + 3 ≤ a → memByte t a = memByte s a) ∧
      PcAdvanced s t ∧ SameRegs s t ∧ t.flag = s.flag ∧ t.i = s.i ∧ SameStack s t ∧ SameTimers s t ∧ SamePorts s t) ∧
    (4096 ≤ s.i.toNat + 2 → ∃ u, exec (.storeBcd x) s = .fault (.outOfBounds u) ∧
      u = { s with mem := u.mem } ∧
      (s.i.toNat < 4096 → (memByte u s.i.toNat).toNat = (getV s x).toNat / 100) ∧
      (s.i.toNat + 1 < 4096 → (memByte u (s.i.toNat + 1)).toNat = (getV s x).toNat / 10 % 10) ∧
      (∀ a, a < s.i.toNat ∨ 4096 ≤ a → memByte u a = memByte s a))

/-- R208, R210: `LD [I], Vx` stores `V[0]` to `V[x]` at ascending addresses from `I` and leaves `I` unchanged. Where one of them
lies past memory it faults; the bytes in range have been written, and nothing else has changed (R226, decision D17, log 12). An
address never wraps (decision D8, log 19), and `I` stays (decision D30, log 28). -/
def Obligations.StoreRegistersWritesTheBlock : Prop :=
  ∀ (x : Nibble) (s : State), (s.i.toNat + x.toNat < 4096 → ∃ t, exec (.storeRegs x) s = .next t ∧
      (∀ r : Nibble, r.toNat ≤ x.toNat → memByte t (s.i.toNat + r.toNat) = getV s r) ∧
      (∀ a, a < s.i.toNat ∨ s.i.toNat + x.toNat < a → memByte t a = memByte s a) ∧
      PcAdvanced s t ∧ SameRegs s t ∧ t.flag = s.flag ∧ t.i = s.i ∧ SameStack s t ∧ SameTimers s t ∧ SamePorts s t) ∧
    (4096 ≤ s.i.toNat + x.toNat → ∃ u, exec (.storeRegs x) s = .fault (.outOfBounds u) ∧
      u = { s with mem := u.mem } ∧
      (∀ r : Nibble, r.toNat ≤ x.toNat → s.i.toNat + r.toNat < 4096 → memByte u (s.i.toNat + r.toNat) = getV s r) ∧
      (∀ a, a < s.i.toNat ∨ 4096 ≤ a → memByte u a = memByte s a))

/-- R209, R210: `LD Vx, [I]` loads `V[0]` to `V[x]` from ascending addresses from `I` and leaves `I` and memory unchanged. Where
a byte lies past memory it faults; the registers whose byte is in range have been loaded, and nothing else has changed (R226,
decision D17, log 12). An address never wraps (decision D8, log 19), and `I` stays (decision D30, log 28). -/
def Obligations.LoadRegistersReadsTheBlock : Prop :=
  ∀ (x : Nibble) (s : State), (s.i.toNat + x.toNat < 4096 → ∃ t, exec (.loadRegs x) s = .next t ∧
      (∀ r : Nibble, r.toNat ≤ x.toNat → getV t r = memByte s (s.i.toNat + r.toNat)) ∧
      (∀ r : Nibble, x.toNat < r.toNat → getV t r = getV s r) ∧
      PcAdvanced s t ∧ SameFlagAddressStackTimersMem s t ∧ SamePorts s t) ∧
    (4096 ≤ s.i.toNat + x.toNat → ∃ u, exec (.loadRegs x) s = .fault (.outOfBounds u) ∧
      u = { s with v := u.v } ∧
      (∀ r : Nibble, r.toNat ≤ x.toNat → s.i.toNat + r.toNat < 4096 → getV u r = memByte s (s.i.toNat + r.toNat)) ∧
      (∀ r : Nibble, x.toNat < r.toNat ∨ 4096 ≤ s.i.toNat + r.toNat → getV u r = getV s r))

/-- R208 to R210: a bulk load undoes a bulk store: whatever the registers were set to in between, loading from the same `I`
brings back every register stored (`I` stays: decision D30, log 28). -/
def Obligations.LoadUndoesStore : Prop :=
  ∀ (x : Nibble) (s t u : State), exec (.storeRegs x) s = .next t → SameMem t u → u.i = t.i →
    ∃ r, exec (.loadRegs x) u = .next r ∧ ∀ q : Nibble, q.toNat ≤ x.toNat → getV r q = getV s q

/-! ## The whole machine -/

/-- R27, R28: exactly six operations write `FLAG`, with 0 or 1, and every other leaves it (90_conflicts.md C1, C4; decision
D13, log 20). -/
def Obligations.ExactlySixOperationsWriteFlag : Prop :=
  ∀ (i : Instr) (s t : State), exec i s = .next t →
    (writesFlag i = true → t.flag = 0#8 ∨ t.flag = 1#8) ∧ (writesFlag i = false → t.flag = s.flag)

/-- R29, R36: no operation reads `FLAG` or `ST`: steps from two states that differ in them only end alike but for them. -/
def Obligations.NoStepReadsFlagOrSoundTimer : Prop :=
  ∀ (s : State) (b : Byte),
    mapOutcome hideFlag (step { s with flag := b }) = mapOutcome hideFlag (step s) ∧
    mapOutcome hideST (step { s with st := b }) = mapOutcome hideST (step s)

/-- R30, R35, R36, R210: which operations may change `I`, the stack, the timers and memory: no others do (that the transfers
leave `I` is decision D30, log 28). -/
def Obligations.OnlyTheirWritersChangeSpecialState : Prop :=
  ∀ (i : Instr) (s t : State), exec i s = .next t →
    ((∀ n, i ≠ .setAddress n) → (∀ x, i ≠ .addAddress x) → (∀ x, i ≠ .fontAddress x) → t.i = s.i) ∧
    ((∀ n, i ≠ .call n) → i ≠ .ret → SameStack s t) ∧
    ((∀ x, i ≠ .setDelay x) → t.dt = s.dt) ∧
    ((∀ x, i ≠ .setSound x) → t.st = s.st) ∧
    ((∀ x, i ≠ .storeBcd x) → (∀ x, i ≠ .storeRegs x) → SameMem s t)

/-- R26, R251: every step keeps `FLAG` at 0 or 1, memory in canonical form and the display's buffer whole; a faulting step
too. -/
def Obligations.StepKeepsInvariant : Prop :=
  ∀ s : State, Inv s →
    (∀ t, step s = .next t → Inv t) ∧ (∀ f, step s = .fault f → Inv (faultState f))

/-- R20, R26, R270: the invariant holds after reset (with the reset values of decisions D3 and D4, log 1, log 2). -/
def Obligations.ResetMeetsInvariant : Prop := Inv State.reset ∧ PcBounded State.reset

/-- R32: from a state whose `PC` and occupied stack entries are in bounds, every step keeps them in bounds, so `PC` never wraps
(R113). -/
def Obligations.StepKeepsPcBounded : Prop :=
  ∀ s : State, PcBounded s → (∀ t, step s = .next t → PcBounded t) ∧ (∀ f, step s = .fault f → PcBounded (faultState f))

/-- R7, R65, R250, R251: every schedule of steps, ticks, reset, loads and host writes keeps the invariant (log 22). -/
def Obligations.EveryScheduleKeepsInvariant : Prop :=
  ∀ (actions : List Action) (s : State), Inv s →
    (∀ t, runActions actions s = .next t → Inv t) ∧ (∀ f, runActions actions s = .fault f → Inv (faultState f))

/-- R275: a finished program stays finished: its steps are the identity on the whole state. What finished
means is decision D25 (log 32). -/
def Obligations.FinishedProgramStaysPut : Prop :=
  ∀ (s : State) (n : Nat), Finished s → Sys2Proof.core.run n s = .next s

/-! ## The other agents and the host (60_exceptions.md, 70_reset_and_hazards.md) -/

/-- R245: `n` ticks take each timer down by `n`, stopping at zero, and change nothing else (decision D19, G7, log 21). -/
def Obligations.TicksCountDownToZero : Prop :=
  ∀ (s : State) (n : Nat), ∃ t, runActions (List.replicate n .tick) s = .next t ∧
    t.dt.toNat = s.dt.toNat - n ∧ t.st.toNat = s.st.toNat - n ∧ t = { s with dt := t.dt, st := t.st }

/-- R56: a block load writes its bytes in order; a block that would run past memory faults, and the bytes in range have been
written. -/
def Obligations.BlockLoadIsSequential : Prop :=
  ∀ (s : State) (start : Nat) (bytes : List Byte),
    (bytes = [] ∨ start + bytes.length ≤ 4096 → ∃ t, loadBlock s start bytes = .ok t ∧ t = { s with mem := t.mem } ∧
      (∀ j (h : j < bytes.length), memByte t (start + j) = bytes[j]) ∧
      (∀ a, a < start ∨ start + bytes.length ≤ a → memByte t a = memByte s a)) ∧
    (4096 < start + bytes.length → bytes ≠ [] → ∃ u, loadBlock s start bytes = .error (.outOfBounds u) ∧
      u = { s with mem := u.mem } ∧
      (∀ j (h : j < bytes.length), start + j < 4096 → memByte u (start + j) = bytes[j]) ∧
      (∀ a, a < start ∨ 4096 ≤ a → memByte u a = memByte s a))

/-- R270, R271, R20: reset puts every piece of core state at its reset value (decisions D3, D4, D26, log 1, log 2), memory at
the font table and zeros, and leaves the peripherals alone. -/
def Obligations.ResetSetsEveryPieceOfState : Prop :=
  ∀ s : State, (∀ r, getV (hostReset s) r = 0#8) ∧ (hostReset s).flag = 0#8 ∧ (hostReset s).i = 0#16 ∧
    (hostReset s).pc = 0x0200#16 ∧ (hostReset s).sp.val = 0 ∧
    (∀ j : Fin 16, (hostReset s).stack[j.val]'j.isLt = 0#16) ∧ (hostReset s).dt = 0#8 ∧ (hostReset s).st = 0#8 ∧
    (∀ a, memByte (hostReset s) a = fontTable.getD a 0#8) ∧ fontTable.length = 80 ∧
    (∀ a, 80 ≤ a → memByte (hostReset s) a = 0#8) ∧ SamePorts s (hostReset s)

/-- R273, R249: after reset and the load of a program of at least one word that fits, the first step runs the program's first
word. -/
def Obligations.BootRunsTheFirstProgramWord : Prop :=
  ∀ (s : State) (hi lo : Byte) (rest : List Byte), rest.length ≤ 3582 →
    ∃ t, loadProgram (hostReset s) (hi :: lo :: rest) = .ok t ∧ step t = exec (decodeWord (wordOf hi lo)) t
end

