-- ==== Sys2Proof/Laws/Decode.lean ====
section
/-! SUPPORT. The fields of packed words, and words from their bytes. -/

namespace Sys2Proof

/-! ## Fields as naturals -/

theorem opOf_toNat (w : Word16) : (opOf w).toNat = w.toNat / 4096 % 16 := by
  simp [opOf, BitVec.extractLsb'_toNat, Nat.shiftRight_eq_div_pow]

theorem xOf_toNat (w : Word16) : (xOf w).toNat = w.toNat / 256 % 16 := by
  simp [xOf, BitVec.extractLsb'_toNat, Nat.shiftRight_eq_div_pow]

theorem yOf_toNat (w : Word16) : (yOf w).toNat = w.toNat / 16 % 16 := by
  simp [yOf, BitVec.extractLsb'_toNat, Nat.shiftRight_eq_div_pow]

theorem nOf_toNat (w : Word16) : (nOf w).toNat = w.toNat % 16 := by
  simp [nOf, BitVec.extractLsb'_toNat]

theorem kkOf_toNat (w : Word16) : (kkOf w).toNat = w.toNat % 256 := by
  simp [kkOf, BitVec.extractLsb'_toNat]

theorem nnnOf_toNat (w : Word16) : (nnnOf w).toNat = w.toNat % 4096 := by
  simp [nnnOf, BitVec.extractLsb'_toNat]

theorem packA_toNat (op : Nibble) (nnn : Addr12) : (packA op nnn).toNat = op.toNat * 4096 + nnn.toNat := by
  have := op.isLt; have := nnn.isLt
  simp [packA]; omega

theorem packXK_toNat (op x : Nibble) (kk : Byte) :
    (packXK op x kk).toNat = op.toNat * 4096 + x.toNat * 256 + kk.toNat := by
  have := op.isLt; have := x.isLt; have := kk.isLt
  simp [packXK]; omega

theorem packXY_toNat (op x y n : Nibble) :
    (packXY op x y n).toNat = op.toNat * 4096 + x.toNat * 256 + y.toNat * 16 + n.toNat := by
  have := op.isLt; have := x.isLt; have := y.isLt; have := n.isLt
  simp [packXY]; omega

/-! ## Fields of packed words (R81, R82) -/

@[simp] theorem opOf_packA (op : Nibble) (nnn : Addr12) : opOf (packA op nnn) = op := by
  have := op.isLt; have := nnn.isLt
  apply BitVec.eq_of_toNat_eq; rw [opOf_toNat, packA_toNat]; omega

@[simp] theorem nnnOf_packA (op : Nibble) (nnn : Addr12) : nnnOf (packA op nnn) = nnn := by
  have := op.isLt; have := nnn.isLt
  apply BitVec.eq_of_toNat_eq; rw [nnnOf_toNat, packA_toNat]; omega

@[simp] theorem opOf_packXK (op x : Nibble) (kk : Byte) : opOf (packXK op x kk) = op := by
  have := op.isLt; have := x.isLt; have := kk.isLt
  apply BitVec.eq_of_toNat_eq; rw [opOf_toNat, packXK_toNat]; omega

@[simp] theorem xOf_packXK (op x : Nibble) (kk : Byte) : xOf (packXK op x kk) = x := by
  have := op.isLt; have := x.isLt; have := kk.isLt
  apply BitVec.eq_of_toNat_eq; rw [xOf_toNat, packXK_toNat]; omega

@[simp] theorem kkOf_packXK (op x : Nibble) (kk : Byte) : kkOf (packXK op x kk) = kk := by
  have := op.isLt; have := x.isLt; have := kk.isLt
  apply BitVec.eq_of_toNat_eq; rw [kkOf_toNat, packXK_toNat]; omega

@[simp] theorem opOf_packXY (op x y n : Nibble) : opOf (packXY op x y n) = op := by
  have := op.isLt; have := x.isLt; have := y.isLt; have := n.isLt
  apply BitVec.eq_of_toNat_eq; rw [opOf_toNat, packXY_toNat]; omega

@[simp] theorem xOf_packXY (op x y n : Nibble) : xOf (packXY op x y n) = x := by
  have := op.isLt; have := x.isLt; have := y.isLt; have := n.isLt
  apply BitVec.eq_of_toNat_eq; rw [xOf_toNat, packXY_toNat]; omega

@[simp] theorem yOf_packXY (op x y n : Nibble) : yOf (packXY op x y n) = y := by
  have := op.isLt; have := x.isLt; have := y.isLt; have := n.isLt
  apply BitVec.eq_of_toNat_eq; rw [yOf_toNat, packXY_toNat]; omega

@[simp] theorem nOf_packXY (op x y n : Nibble) : nOf (packXY op x y n) = n := by
  have := op.isLt; have := x.isLt; have := y.isLt; have := n.isLt
  apply BitVec.eq_of_toNat_eq; rw [nOf_toNat, packXY_toNat]; omega

@[simp] theorem yOf_packXK (op x : Nibble) (kk : Byte) : yOf (packXK op x kk) = kk.extractLsb' 4 4 := by
  have := op.isLt; have := x.isLt; have := kk.isLt
  apply BitVec.eq_of_toNat_eq
  rw [yOf_toNat, packXK_toNat, BitVec.extractLsb'_toNat]
  simp [Nat.shiftRight_eq_div_pow]; omega

@[simp] theorem nOf_packXK (op x : Nibble) (kk : Byte) : nOf (packXK op x kk) = kk.extractLsb' 0 4 := by
  have := op.isLt; have := x.isLt; have := kk.isLt
  apply BitVec.eq_of_toNat_eq
  rw [nOf_toNat, packXK_toNat, BitVec.extractLsb'_toNat]
  simp; omega

/-! ## Fields of constants -/

@[simp] theorem opOf_const (k : Nat) : opOf (BitVec.ofNat 16 k) = BitVec.ofNat 4 (k / 4096) := by
  apply BitVec.eq_of_toNat_eq; rw [opOf_toNat]; simp; omega

@[simp] theorem xOf_const (k : Nat) : xOf (BitVec.ofNat 16 k) = BitVec.ofNat 4 (k / 256) := by
  apply BitVec.eq_of_toNat_eq; rw [xOf_toNat]; simp; omega

@[simp] theorem yOf_const (k : Nat) : yOf (BitVec.ofNat 16 k) = BitVec.ofNat 4 (k / 16) := by
  apply BitVec.eq_of_toNat_eq; rw [yOf_toNat]; simp; omega

@[simp] theorem nOf_const (k : Nat) : nOf (BitVec.ofNat 16 k) = BitVec.ofNat 4 k := by
  apply BitVec.eq_of_toNat_eq; rw [nOf_toNat]; simp

/-- A nibble masked with ones is itself. -/
@[simp] theorem nibble_and_ones (x : Nibble) : x &&& 15#4 = x := by revert x; decide

/-! ## Words and nibbles -/

/-- A word is its four nibbles. -/
theorem word_ext {u w : Word16} (h1 : opOf u = opOf w) (h2 : xOf u = xOf w) (h3 : yOf u = yOf w) (h4 : nOf u = nOf w) :
    u = w := by
  have e1 := congrArg BitVec.toNat h1; have e2 := congrArg BitVec.toNat h2
  have e3 := congrArg BitVec.toNat h3; have e4 := congrArg BitVec.toNat h4
  have := u.isLt; have := w.isLt
  rw [opOf_toNat, opOf_toNat] at e1; rw [xOf_toNat, xOf_toNat] at e2
  rw [yOf_toNat, yOf_toNat] at e3; rw [nOf_toNat, nOf_toNat] at e4
  apply BitVec.eq_of_toNat_eq; omega

/-- The low byte is the two low nibbles. -/
theorem kkOf_eq_iff (w : Word16) (kk : Byte) :
    kkOf w = kk ↔ yOf w = kk.extractLsb' 4 4 ∧ nOf w = kk.extractLsb' 0 4 := by
  rw [← BitVec.toNat_inj, ← BitVec.toNat_inj, ← BitVec.toNat_inj, kkOf_toNat, yOf_toNat, nOf_toNat,
    BitVec.extractLsb'_toNat, BitVec.extractLsb'_toNat]
  have := w.isLt; have := kk.isLt
  simp [Nat.shiftRight_eq_div_pow]; omega

/-- The low byte from the two low nibbles. -/
theorem kkOf_nibbles (w : Word16) : kkOf w = BitVec.ofNat 8 ((yOf w).toNat * 16 + (nOf w).toNat) := by
  have := w.isLt
  apply BitVec.eq_of_toNat_eq
  simp [kkOf_toNat, yOf_toNat, nOf_toNat]; omega

/-- A family number that is none of 0 to 14 is 15. -/
theorem opOf_eq_fifteen (w : Word16) (h : ∀ k < 15, opOf w ≠ BitVec.ofNat 4 k) : opOf w = 15#4 := by
  revert h; generalize opOf w = op; revert op; decide

/-- A masked word compared with a pattern, nibble by nibble (R97). -/
theorem and_eq_iff (w mask pattern : Word16) : w &&& mask = pattern ↔
    opOf w &&& opOf mask = opOf pattern ∧ xOf w &&& xOf mask = xOf pattern ∧
      yOf w &&& yOf mask = yOf pattern ∧ nOf w &&& nOf mask = nOf pattern := by
  have e1 : opOf (w &&& mask) = opOf w &&& opOf mask := BitVec.extractLsb'_and
  have e2 : xOf (w &&& mask) = xOf w &&& xOf mask := BitVec.extractLsb'_and
  have e3 : yOf (w &&& mask) = yOf w &&& yOf mask := BitVec.extractLsb'_and
  have e4 : nOf (w &&& mask) = nOf w &&& nOf mask := BitVec.extractLsb'_and
  constructor
  · rintro rfl; exact ⟨e1.symm, e2.symm, e3.symm, e4.symm⟩
  · rintro ⟨h1, h2, h3, h4⟩
    exact word_ext (e1.trans h1) (e2.trans h2) (e3.trans h3) (e4.trans h4)

/-- A word read back from the bytes it is stored as (R59). -/
theorem wordOf_wordBytes (w : Word16) : wordOf (w.extractLsb' 8 8) (w.extractLsb' 0 8) = w := by
  have := w.isLt
  apply BitVec.eq_of_toNat_eq
  simp [wordOf, BitVec.extractLsb'_toNat, Nat.shiftRight_eq_div_pow]; omega

/-- Decoding the bytes of a word is decoding the word. -/
theorem decode_wordBytes (w : Word16) (rest : List Byte) : decode (wordBytes w ++ rest) = .ok (decodeWord w, rest) := by
  simp [wordBytes, decode, wordOf_wordBytes]

end Sys2Proof
end

