-- ==== Sys2Proof/Laws/State.lean ====
section
/-! SUPPORT. The state's own small lemmas: one for each field and each update, true by `rfl`, and what the register accessors
read after a register update, so that no later proof unfolds a record update. -/

namespace Sys2Proof.Machine

@[simp] theorem setV_flag (s : State) (x : Nibble) (b : Byte) : (setV s x b).flag = s.flag := rfl
@[simp] theorem setV_i (s : State) (x : Nibble) (b : Byte) : (setV s x b).i = s.i := rfl
@[simp] theorem setV_pc (s : State) (x : Nibble) (b : Byte) : (setV s x b).pc = s.pc := rfl
@[simp] theorem setV_sp (s : State) (x : Nibble) (b : Byte) : (setV s x b).sp = s.sp := rfl
@[simp] theorem setV_stack (s : State) (x : Nibble) (b : Byte) : (setV s x b).stack = s.stack := rfl
@[simp] theorem setV_dt (s : State) (x : Nibble) (b : Byte) : (setV s x b).dt = s.dt := rfl
@[simp] theorem setV_st (s : State) (x : Nibble) (b : Byte) : (setV s x b).st = s.st := rfl
@[simp] theorem setV_mem (s : State) (x : Nibble) (b : Byte) : (setV s x b).mem = s.mem := rfl
@[simp] theorem setV_ports (s : State) (x : Nibble) (b : Byte) : (setV s x b).ports = s.ports := rfl

@[simp] theorem setFlag_v (s : State) (b : Byte) : (setFlag s b).v = s.v := rfl
@[simp] theorem setFlag_flag (s : State) (b : Byte) : (setFlag s b).flag = b := rfl
@[simp] theorem setFlag_i (s : State) (b : Byte) : (setFlag s b).i = s.i := rfl
@[simp] theorem setFlag_pc (s : State) (b : Byte) : (setFlag s b).pc = s.pc := rfl
@[simp] theorem setFlag_sp (s : State) (b : Byte) : (setFlag s b).sp = s.sp := rfl
@[simp] theorem setFlag_stack (s : State) (b : Byte) : (setFlag s b).stack = s.stack := rfl
@[simp] theorem setFlag_dt (s : State) (b : Byte) : (setFlag s b).dt = s.dt := rfl
@[simp] theorem setFlag_st (s : State) (b : Byte) : (setFlag s b).st = s.st := rfl
@[simp] theorem setFlag_mem (s : State) (b : Byte) : (setFlag s b).mem = s.mem := rfl
@[simp] theorem setFlag_ports (s : State) (b : Byte) : (setFlag s b).ports = s.ports := rfl

@[simp] theorem setI_v (s : State) (w : Word16) : (setI s w).v = s.v := rfl
@[simp] theorem setI_flag (s : State) (w : Word16) : (setI s w).flag = s.flag := rfl
@[simp] theorem setI_i (s : State) (w : Word16) : (setI s w).i = w := rfl
@[simp] theorem setI_pc (s : State) (w : Word16) : (setI s w).pc = s.pc := rfl
@[simp] theorem setI_sp (s : State) (w : Word16) : (setI s w).sp = s.sp := rfl
@[simp] theorem setI_stack (s : State) (w : Word16) : (setI s w).stack = s.stack := rfl
@[simp] theorem setI_dt (s : State) (w : Word16) : (setI s w).dt = s.dt := rfl
@[simp] theorem setI_st (s : State) (w : Word16) : (setI s w).st = s.st := rfl
@[simp] theorem setI_mem (s : State) (w : Word16) : (setI s w).mem = s.mem := rfl
@[simp] theorem setI_ports (s : State) (w : Word16) : (setI s w).ports = s.ports := rfl

@[simp] theorem setPc_v (s : State) (w : Word16) : (setPc s w).v = s.v := rfl
@[simp] theorem setPc_flag (s : State) (w : Word16) : (setPc s w).flag = s.flag := rfl
@[simp] theorem setPc_i (s : State) (w : Word16) : (setPc s w).i = s.i := rfl
@[simp] theorem setPc_pc (s : State) (w : Word16) : (setPc s w).pc = w := rfl
@[simp] theorem setPc_sp (s : State) (w : Word16) : (setPc s w).sp = s.sp := rfl
@[simp] theorem setPc_stack (s : State) (w : Word16) : (setPc s w).stack = s.stack := rfl
@[simp] theorem setPc_dt (s : State) (w : Word16) : (setPc s w).dt = s.dt := rfl
@[simp] theorem setPc_st (s : State) (w : Word16) : (setPc s w).st = s.st := rfl
@[simp] theorem setPc_mem (s : State) (w : Word16) : (setPc s w).mem = s.mem := rfl
@[simp] theorem setPc_ports (s : State) (w : Word16) : (setPc s w).ports = s.ports := rfl

@[simp] theorem setDT_v (s : State) (b : Byte) : (setDT s b).v = s.v := rfl
@[simp] theorem setDT_flag (s : State) (b : Byte) : (setDT s b).flag = s.flag := rfl
@[simp] theorem setDT_i (s : State) (b : Byte) : (setDT s b).i = s.i := rfl
@[simp] theorem setDT_pc (s : State) (b : Byte) : (setDT s b).pc = s.pc := rfl
@[simp] theorem setDT_sp (s : State) (b : Byte) : (setDT s b).sp = s.sp := rfl
@[simp] theorem setDT_stack (s : State) (b : Byte) : (setDT s b).stack = s.stack := rfl
@[simp] theorem setDT_dt (s : State) (b : Byte) : (setDT s b).dt = b := rfl
@[simp] theorem setDT_st (s : State) (b : Byte) : (setDT s b).st = s.st := rfl
@[simp] theorem setDT_mem (s : State) (b : Byte) : (setDT s b).mem = s.mem := rfl
@[simp] theorem setDT_ports (s : State) (b : Byte) : (setDT s b).ports = s.ports := rfl

@[simp] theorem setST_v (s : State) (b : Byte) : (setST s b).v = s.v := rfl
@[simp] theorem setST_flag (s : State) (b : Byte) : (setST s b).flag = s.flag := rfl
@[simp] theorem setST_i (s : State) (b : Byte) : (setST s b).i = s.i := rfl
@[simp] theorem setST_pc (s : State) (b : Byte) : (setST s b).pc = s.pc := rfl
@[simp] theorem setST_sp (s : State) (b : Byte) : (setST s b).sp = s.sp := rfl
@[simp] theorem setST_stack (s : State) (b : Byte) : (setST s b).stack = s.stack := rfl
@[simp] theorem setST_dt (s : State) (b : Byte) : (setST s b).dt = s.dt := rfl
@[simp] theorem setST_st (s : State) (b : Byte) : (setST s b).st = b := rfl
@[simp] theorem setST_mem (s : State) (b : Byte) : (setST s b).mem = s.mem := rfl
@[simp] theorem setST_ports (s : State) (b : Byte) : (setST s b).ports = s.ports := rfl

@[simp] theorem advance_v (s : State) : (advance s).v = s.v := rfl
@[simp] theorem advance_flag (s : State) : (advance s).flag = s.flag := rfl
@[simp] theorem advance_i (s : State) : (advance s).i = s.i := rfl
@[simp] theorem advance_pc (s : State) : (advance s).pc = s.pc + 2#16 := rfl
@[simp] theorem advance_sp (s : State) : (advance s).sp = s.sp := rfl
@[simp] theorem advance_stack (s : State) : (advance s).stack = s.stack := rfl
@[simp] theorem advance_dt (s : State) : (advance s).dt = s.dt := rfl
@[simp] theorem advance_st (s : State) : (advance s).st = s.st := rfl
@[simp] theorem advance_mem (s : State) : (advance s).mem = s.mem := rfl
@[simp] theorem advance_ports (s : State) : (advance s).ports = s.ports := rfl

@[simp] theorem skipIf_v (s : State) (c : Bool) : (skipIf s c).v = s.v := rfl
@[simp] theorem skipIf_flag (s : State) (c : Bool) : (skipIf s c).flag = s.flag := rfl
@[simp] theorem skipIf_i (s : State) (c : Bool) : (skipIf s c).i = s.i := rfl
@[simp] theorem skipIf_pc (s : State) (c : Bool) : (skipIf s c).pc = (if c then s.pc + 4#16 else s.pc + 2#16) := rfl
@[simp] theorem skipIf_sp (s : State) (c : Bool) : (skipIf s c).sp = s.sp := rfl
@[simp] theorem skipIf_stack (s : State) (c : Bool) : (skipIf s c).stack = s.stack := rfl
@[simp] theorem skipIf_dt (s : State) (c : Bool) : (skipIf s c).dt = s.dt := rfl
@[simp] theorem skipIf_st (s : State) (c : Bool) : (skipIf s c).st = s.st := rfl
@[simp] theorem skipIf_mem (s : State) (c : Bool) : (skipIf s c).mem = s.mem := rfl
@[simp] theorem skipIf_ports (s : State) (c : Bool) : (skipIf s c).ports = s.ports := rfl

@[simp] theorem countAnswer_v (s : State) : (countAnswer s).v = s.v := rfl
@[simp] theorem countAnswer_flag (s : State) : (countAnswer s).flag = s.flag := rfl
@[simp] theorem countAnswer_i (s : State) : (countAnswer s).i = s.i := rfl
@[simp] theorem countAnswer_pc (s : State) : (countAnswer s).pc = s.pc := rfl
@[simp] theorem countAnswer_sp (s : State) : (countAnswer s).sp = s.sp := rfl
@[simp] theorem countAnswer_stack (s : State) : (countAnswer s).stack = s.stack := rfl
@[simp] theorem countAnswer_dt (s : State) : (countAnswer s).dt = s.dt := rfl
@[simp] theorem countAnswer_st (s : State) : (countAnswer s).st = s.st := rfl
@[simp] theorem countAnswer_mem (s : State) : (countAnswer s).mem = s.mem := rfl

@[simp] theorem clearDisplay_v (s : State) : (clearDisplay s).v = s.v := rfl
@[simp] theorem clearDisplay_flag (s : State) : (clearDisplay s).flag = s.flag := rfl
@[simp] theorem clearDisplay_i (s : State) : (clearDisplay s).i = s.i := rfl
@[simp] theorem clearDisplay_pc (s : State) : (clearDisplay s).pc = s.pc := rfl
@[simp] theorem clearDisplay_sp (s : State) : (clearDisplay s).sp = s.sp := rfl
@[simp] theorem clearDisplay_stack (s : State) : (clearDisplay s).stack = s.stack := rfl
@[simp] theorem clearDisplay_dt (s : State) : (clearDisplay s).dt = s.dt := rfl
@[simp] theorem clearDisplay_st (s : State) : (clearDisplay s).st = s.st := rfl
@[simp] theorem clearDisplay_mem (s : State) : (clearDisplay s).mem = s.mem := rfl

@[simp] theorem tick_v (s : State) : (tick s).v = s.v := rfl
@[simp] theorem tick_flag (s : State) : (tick s).flag = s.flag := rfl
@[simp] theorem tick_i (s : State) : (tick s).i = s.i := rfl
@[simp] theorem tick_pc (s : State) : (tick s).pc = s.pc := rfl
@[simp] theorem tick_sp (s : State) : (tick s).sp = s.sp := rfl
@[simp] theorem tick_stack (s : State) : (tick s).stack = s.stack := rfl
@[simp] theorem tick_dt (s : State) : (tick s).dt = countDown s.dt := rfl
@[simp] theorem tick_st (s : State) : (tick s).st = countDown s.st := rfl
@[simp] theorem tick_mem (s : State) : (tick s).mem = s.mem := rfl
@[simp] theorem tick_ports (s : State) : (tick s).ports = s.ports := rfl

@[simp] theorem memByte_setV (s : State) (x : Nibble) (b : Byte) (a : Nat) : memByte (setV s x b) a = memByte s a := rfl
@[simp] theorem getV_setFlag (s : State) (b : Byte) (r : Nibble) : getV (setFlag s b) r = getV s r := rfl
@[simp] theorem memByte_setFlag (s : State) (b : Byte) (a : Nat) : memByte (setFlag s b) a = memByte s a := rfl
@[simp] theorem getV_setI (s : State) (w : Word16) (r : Nibble) : getV (setI s w) r = getV s r := rfl
@[simp] theorem memByte_setI (s : State) (w : Word16) (a : Nat) : memByte (setI s w) a = memByte s a := rfl
@[simp] theorem getV_setPc (s : State) (w : Word16) (r : Nibble) : getV (setPc s w) r = getV s r := rfl
@[simp] theorem memByte_setPc (s : State) (w : Word16) (a : Nat) : memByte (setPc s w) a = memByte s a := rfl
@[simp] theorem getV_setDT (s : State) (b : Byte) (r : Nibble) : getV (setDT s b) r = getV s r := rfl
@[simp] theorem memByte_setDT (s : State) (b : Byte) (a : Nat) : memByte (setDT s b) a = memByte s a := rfl
@[simp] theorem getV_setST (s : State) (b : Byte) (r : Nibble) : getV (setST s b) r = getV s r := rfl
@[simp] theorem memByte_setST (s : State) (b : Byte) (a : Nat) : memByte (setST s b) a = memByte s a := rfl
@[simp] theorem getV_advance (s : State) (r : Nibble) : getV (advance s) r = getV s r := rfl
@[simp] theorem memByte_advance (s : State) (a : Nat) : memByte (advance s) a = memByte s a := rfl
@[simp] theorem getV_skipIf (s : State) (c : Bool) (r : Nibble) : getV (skipIf s c) r = getV s r := rfl
@[simp] theorem memByte_skipIf (s : State) (c : Bool) (a : Nat) : memByte (skipIf s c) a = memByte s a := rfl
@[simp] theorem getV_countAnswer (s : State) (r : Nibble) : getV (countAnswer s) r = getV s r := rfl
@[simp] theorem memByte_countAnswer (s : State) (a : Nat) : memByte (countAnswer s) a = memByte s a := rfl
@[simp] theorem getV_clearDisplay (s : State) (r : Nibble) : getV (clearDisplay s) r = getV s r := rfl
@[simp] theorem memByte_clearDisplay (s : State) (a : Nat) : memByte (clearDisplay s) a = memByte s a := rfl
@[simp] theorem getV_tick (s : State) (r : Nibble) : getV (tick s) r = getV s r := rfl
@[simp] theorem memByte_tick (s : State) (a : Nat) : memByte (tick s) a = memByte s a := rfl

/-- Reading a register after a register write. -/
theorem getV_setV (s : State) (x r : Nibble) (b : Byte) : getV (setV s x b) r = if r = x then b else getV s r := by
  by_cases h : r = x
  · subst h; simp [getV, setV]
  · have : x.toNat ≠ r.toNat := fun e => h (BitVec.eq_of_toNat_eq e.symm)
    simp [getV, setV, this, h]

@[simp] theorem getV_setV_same (s : State) (x : Nibble) (b : Byte) : getV (setV s x b) x = b := by simp [getV_setV]

theorem getV_setV_other (s : State) {x r : Nibble} (h : r ≠ x) (b : Byte) : getV (setV s x b) r = getV s r := by
  simp [getV_setV, h]

/-- The advance as a sum of naturals (R113). -/
theorem advance_pc_toNat (s : State) : (advance s).pc.toNat = (s.pc.toNat + 2) % 65536 := by
  simp [BitVec.toNat_add]

/-- A skip as a sum of naturals (R113, R144). -/
theorem skipIf_pc_toNat (s : State) (c : Bool) :
    (skipIf s c).pc.toNat = (s.pc.toNat + if c then 4 else 2) % 65536 := by
  cases c <;> simp [BitVec.toNat_add]

/-- Two states with the same registers, read one by one, hold the same register file. -/
theorem v_ext {v w : Vector Byte 16} (h : ∀ r : Nibble, v[r.toNat]'r.isLt = w[r.toNat]'r.isLt) : v = w := by
  apply Vector.ext
  intro j hj
  have := h (BitVec.ofNat 4 j)
  simpa [Nat.mod_eq_of_lt hj] using this

@[simp] theorem getV_reset (r : Nibble) : getV State.reset r = 0#8 := by simp [getV, State.reset]

@[simp] theorem flagOf_toNat (c : Bool) : (flagOf c).toNat = if c then 1 else 0 := by cases c <;> rfl

theorem flagOf_cases (c : Bool) : flagOf c = 0#8 ∨ flagOf c = 1#8 := by cases c <;> simp [flagOf]

end Sys2Proof.Machine
end

