-- ==== Sys2Proof/Laws/Memory.lean ====
section
/-! SUPPORT. Memory: read after write, the canonical form, and one lemma for each access operation that says everything it
can do. -/

namespace Sys2Proof.Machine

/-! ## Cells -/

theorem readByte_dropCell (m : Memory) (a c : Nat) :
    readByte (dropCell m a) c = if c = a then resetByte c else readByte m c := by
  induction m with
  | nil => simp [dropCell, readByte]
  | cons d rest ih =>
    unfold dropCell at ih ⊢
    by_cases hd : d.1 = a
    · subst hd
      by_cases hc : c = d.1
      · simpa [hc] using ih
      · simp [ih, readByte, hc, Ne.symm hc]
    · by_cases hc : c = a
      · subst hc; simp [hd, readByte, ih]
      · simp [hd, readByte, ih, hc]

theorem readByte_insertCell (m : Memory) (a : Nat) (b : Byte) (c : Nat) (hm : ∀ d ∈ m, d.1 ≠ a) :
    readByte (insertCell m a b) c = if c = a then b else readByte m c := by
  induction m with
  | nil => simp [insertCell, readByte, eq_comm]
  | cons d rest ih =>
    have hd := hm d (by simp)
    have ih := ih fun e he => hm e (by simp [he])
    unfold insertCell
    split
    · simp [readByte, eq_comm]
    · simp only [readByte, ih]
      by_cases hc : c = a
      · subst hc; simp [hd]
      · simp [hc]

/-- Read after write (R52, R53, R67): the byte written at its own address, every other byte as before. -/
theorem readByte_writeByte (m : Memory) (a : Nat) (b : Byte) (c : Nat) :
    readByte (writeByte m a b) c = if c = a then b else readByte m c := by
  unfold writeByte
  split
  · next h =>
    rw [readByte_dropCell]
    by_cases hc : c = a
    · simp [hc, h]
    · simp [hc]
  · rw [readByte_insertCell _ _ _ _ fun d hd => by simpa [dropCell] using (List.mem_filter.1 hd).2, readByte_dropCell]
    by_cases hc : c = a <;> simp [hc]

/-! ## The canonical form -/

theorem wfFrom_cons {lo : Nat} {c : Host.Cell} {rest : Memory} :
    Memory.wfFrom lo (c :: rest) = true ↔
      lo ≤ c.1 ∧ c.1 < 4096 ∧ c.2 ≠ resetByte c.1 ∧ Memory.wfFrom (c.1 + 1) rest = true := by
  simp [Memory.wfFrom, and_assoc]

theorem wfFrom_mono {lo lo' : Nat} {m : Memory} (h : Memory.wfFrom lo m = true) (hl : lo' ≤ lo) :
    Memory.wfFrom lo' m = true := by
  cases m with
  | nil => rfl
  | cons c rest =>
    rw [wfFrom_cons] at h ⊢
    exact ⟨Nat.le_trans hl h.1, h.2⟩

theorem wfFrom_dropCell {lo : Nat} {m : Memory} (a : Nat) (h : Memory.wfFrom lo m = true) :
    Memory.wfFrom lo (dropCell m a) = true := by
  induction m generalizing lo with
  | nil => rfl
  | cons c rest ih =>
    rw [wfFrom_cons] at h
    unfold dropCell at ih ⊢
    by_cases hc : c.1 = a
    · simpa [hc] using wfFrom_mono (ih h.2.2.2) (by omega)
    · simp only [bne_iff_ne, ne_eq, hc, not_false_eq_true, List.filter_cons_of_pos]
      exact wfFrom_cons.2 ⟨h.1, h.2.1, h.2.2.1, ih h.2.2.2⟩

theorem wfFrom_insertCell {lo a : Nat} {m : Memory} {b : Byte} (h : Memory.wfFrom lo m = true) (hm : ∀ d ∈ m, d.1 ≠ a)
    (hl : lo ≤ a) (ha : a < 4096) (hb : b ≠ resetByte a) : Memory.wfFrom lo (insertCell m a b) = true := by
  induction m generalizing lo with
  | nil => exact wfFrom_cons.2 ⟨hl, ha, hb, rfl⟩
  | cons c rest ih =>
    have hc := hm c (by simp)
    unfold insertCell
    split
    · refine wfFrom_cons.2 ⟨hl, ha, hb, ?_⟩
      rw [wfFrom_cons] at h ⊢
      exact ⟨by omega, h.2⟩
    · rw [wfFrom_cons] at h ⊢
      exact ⟨h.1, h.2.1, h.2.2.1, ih h.2.2.2 (fun d hd => hm d (by simp [hd])) (by omega)⟩

/-- Every memory write in range keeps the canonical form. -/
theorem wf_writeByte {a : Nat} {m : Memory} (b : Byte) (hm : Memory.wf m = true) (ha : a < 4096) :
    Memory.wf (writeByte m a b) = true := by
  unfold writeByte
  split
  · exact wfFrom_dropCell a hm
  · next h =>
    refine wfFrom_insertCell (wfFrom_dropCell a hm) (fun d hd => ?_) (Nat.zero_le _) ha h
    simpa [dropCell] using (List.mem_filter.1 hd).2

@[simp] theorem wf_reset : Memory.wf State.reset.mem = true := rfl

/-! ## Byte access (R52, R53) -/

theorem memRead_ok (s : State) {a : Nat} (h : a < 4096) : memRead s a = .ok (memByte s a) := by
  simp [memRead, h]

theorem memRead_error (s : State) {a : Nat} (h : 4096 ≤ a) : memRead s a = .error (.outOfBounds s) := by
  simp [memRead, raise, Nat.not_lt.2 h]

theorem memWrite_ok (s : State) {a : Nat} (b : Byte) (h : a < 4096) :
    memWrite s a b = .ok { s with mem := writeByte s.mem a b } := by simp [memWrite, h]

theorem memWrite_error (s : State) {a : Nat} (b : Byte) (h : 4096 ≤ a) : memWrite s a b = .error (.outOfBounds s) := by
  simp [memWrite, raise, Nat.not_lt.2 h]

/-! ## The fetch (R54, R111) -/

/-- The fetch succeeds with the word at `PC`. -/
theorem fetchWord_ok (s : State) (h : s.pc.toNat < 4095) : fetchWord s = .ok (wordAtPc s) := by
  simp [fetchWord, memRead2, memRead_ok s (show s.pc.toNat < 4096 by omega),
    memRead_ok s (show s.pc.toNat + 1 < 4096 by omega), wordAtPc]

/-- The fetch faults and leaves the state as it was. -/
theorem fetchWord_error (s : State) (h : 4095 ≤ s.pc.toNat) : fetchWord s = .error (.outOfBounds s) := by
  unfold fetchWord memRead2
  by_cases h' : s.pc.toNat < 4096
  · simp [memRead_ok s h', memRead_error s (show 4096 ≤ s.pc.toNat + 1 by omega)]
  · simp [memRead_error s (Nat.not_lt.1 h')]

/-! ## Bytes in a row (R64) -/

/-- The bytes of memory from `a` up. -/
def bytesFrom (s : State) (a n : Nat) : List Byte := (List.range n).map fun k => memByte s (a + k)

theorem bytesFrom_succ (s : State) (a n : Nat) : bytesFrom s a (n + 1) = memByte s a :: bytesFrom s (a + 1) n := by
  simp [bytesFrom, List.range_succ_eq_map, Nat.add_assoc, Nat.add_comm 1]

theorem readBytes_ok (s : State) {a n : Nat} (h : n = 0 ∨ a + n ≤ 4096) : readBytes s a n = .ok (bytesFrom s a n) := by
  induction n generalizing a with
  | zero => rfl
  | succ n ih =>
    rw [bytesFrom_succ, readBytes, memRead_ok s (by omega), ih (a := a + 1) (by omega)]

theorem readBytes_error (s : State) {a n : Nat} (h0 : 0 < n) (h : 4096 < a + n) :
    readBytes s a n = .error (.outOfBounds s) := by
  induction n generalizing a with
  | zero => omega
  | succ n ih =>
    unfold readBytes
    by_cases ha : a < 4096
    · rw [memRead_ok s ha, ih (a := a + 1) (by omega) (by omega)]
    · rw [memRead_error s (Nat.not_lt.1 ha)]

/-- Memory with bytes written one after another from `a` up. -/
def writeBytes (m : Memory) (a : Nat) (bytes : List Byte) : Memory :=
  match bytes with
  | [] => m
  | b :: bs => writeBytes (writeByte m a b) (a + 1) bs

/-- What a block of writes leaves at each address. -/
theorem readByte_writeBytes (m : Memory) (a : Nat) (bytes : List Byte) (c : Nat) :
    readByte (writeBytes m a bytes) c =
      if a ≤ c ∧ c < a + bytes.length then bytes.getD (c - a) 0#8 else readByte m c := by
  induction bytes generalizing m a with
  | nil => simp [writeBytes]
  | cons b bs ih =>
    rw [writeBytes, ih, readByte_writeByte]
    by_cases h1 : c = a
    · subst h1
      simp
    · by_cases h2 : a + 1 ≤ c ∧ c < a + 1 + bs.length
      · have h3 : a ≤ c ∧ c < a + (b :: bs).length := by simp; omega
        have h4 : c - a = (c - (a + 1)) + 1 := by omega
        rw [if_pos h2, if_pos h3, h4, List.getD_cons_succ]
      · have h3 : ¬ (a ≤ c ∧ c < a + (b :: bs).length) := by simp; omega
        rw [if_neg h2, if_neg h3, if_neg h1]

theorem wf_writeBytes {m : Memory} {a : Nat} {bytes : List Byte} (hm : Memory.wf m = true) (h : a + bytes.length ≤ 4096) :
    Memory.wf (writeBytes m a bytes) = true := by
  induction bytes generalizing m a with
  | nil => exact hm
  | cons b bs ih =>
    simp only [List.length_cons] at h
    exact ih (wf_writeByte b hm (by omega)) (by omega)

/-- A block of writes that fits. -/
theorem storeBytes_ok (s : State) {a : Nat} {bytes : List Byte} (h : bytes = [] ∨ a + bytes.length ≤ 4096) :
    storeBytes s a bytes = .ok { s with mem := writeBytes s.mem a bytes } := by
  induction bytes generalizing s a with
  | nil => rfl
  | cons b bs ih =>
    simp only [List.length_cons, reduceCtorEq, false_or] at h
    rw [storeBytes, memWrite_ok s b (by omega)]
    exact ih _ (by omega)

/-- A block of writes that runs past memory: the bytes in range have been written. -/
theorem storeBytes_error (s : State) {a : Nat} {bytes : List Byte} (h0 : bytes ≠ []) (h : 4096 < a + bytes.length) :
    storeBytes s a bytes = .error (.outOfBounds { s with mem := writeBytes s.mem a (bytes.take (4096 - a)) }) := by
  induction bytes generalizing s a with
  | nil => exact absurd rfl h0
  | cons b bs ih =>
    simp only [List.length_cons] at h
    unfold storeBytes
    by_cases ha : a < 4096
    · rw [memWrite_ok s b ha]
      have hk : 4096 - a = (4096 - (a + 1)) + 1 := by omega
      have hbs : bs ≠ [] := by rintro rfl; simp at h; omega
      simp only [hk, List.take_succ_cons, writeBytes]
      exact ih _ hbs (by omega)
    · rw [memWrite_error s b (Nat.not_lt.1 ha)]
      simp [show 4096 - a = 0 by omega, writeBytes]

/-- A block load into registers that fits: registers `k` to `k + n - 1` take the bytes from `a` up, nothing else changes. -/
theorem loadRegsFrom_ok (s : State) {a k n : Nat} (hk : k + n ≤ 16) (h : n = 0 ∨ a + n ≤ 4096) :
    ∃ t, loadRegsFrom s a k n = .ok t ∧ t = { s with v := t.v } ∧
      ∀ r : Nibble, getV t r =
        if k ≤ r.toNat ∧ r.toNat < k + n then memByte s (a + (r.toNat - k)) else getV s r := by
  induction n generalizing s a k with
  | zero => exact ⟨s, rfl, rfl, fun r => by rw [if_neg]; omega⟩
  | succ n ih =>
    obtain ⟨t, h1, h2, h3⟩ := ih (setV s (BitVec.ofNat 4 k) (memByte s a)) (a := a + 1) (k := k + 1) (by omega) (by omega)
    refine ⟨t, by rw [loadRegsFrom, memRead_ok s (by omega)]; exact h1, by rw [h2]; rfl, fun r => ?_⟩
    have hr := r.isLt
    rw [h3, getV_setV, memByte_setV]
    have hk' : (BitVec.ofNat 4 k).toNat = k := by simp; omega
    by_cases e : r = BitVec.ofNat 4 k
    · have e' : r.toNat = k := by rw [e, hk']
      rw [if_neg (by omega), if_pos e, if_pos (by omega)]
      simp [e']
    · have e' : r.toNat ≠ k := fun x => e (BitVec.eq_of_toNat_eq (by rw [hk', x]))
      rw [if_neg e]
      by_cases c : k + 1 ≤ r.toNat ∧ r.toNat < k + 1 + n
      · rw [if_pos c, if_pos (by omega)]
        congr 1; omega
      · rw [if_neg c, if_neg (by omega)]

/-- A block load into registers that runs past memory: the registers whose byte is in range have been loaded. -/
theorem loadRegsFrom_error (s : State) {a k n : Nat} (hk : k + n ≤ 16) (h0 : 0 < n) (h : 4096 < a + n) :
    ∃ t, loadRegsFrom s a k n = .error (.outOfBounds t) ∧ t = { s with v := t.v } ∧
      ∀ r : Nibble, getV t r =
        if k ≤ r.toNat ∧ r.toNat < k + n ∧ a + (r.toNat - k) < 4096 then memByte s (a + (r.toNat - k)) else getV s r := by
  induction n generalizing s a k with
  | zero => omega
  | succ n ih =>
    unfold loadRegsFrom
    by_cases ha : a < 4096
    · obtain ⟨t, h1, h2, h3⟩ :=
        ih (setV s (BitVec.ofNat 4 k) (memByte s a)) (a := a + 1) (k := k + 1) (by omega) (by omega) (by omega)
      refine ⟨t, by rw [memRead_ok s ha]; exact h1, by rw [h2]; rfl, fun r => ?_⟩
      have hr := r.isLt
      rw [h3, getV_setV, memByte_setV]
      have hk' : (BitVec.ofNat 4 k).toNat = k := by simp; omega
      by_cases e : r = BitVec.ofNat 4 k
      · have e' : r.toNat = k := by rw [e, hk']
        rw [if_neg (by omega), if_pos e, if_pos (by omega)]
        simp [e']
      · have e' : r.toNat ≠ k := fun x => e (BitVec.eq_of_toNat_eq (by rw [hk', x]))
        rw [if_neg e]
        by_cases c : k + 1 ≤ r.toNat ∧ r.toNat < k + 1 + n ∧ a + 1 + (r.toNat - (k + 1)) < 4096
        · rw [if_pos c, if_pos (by omega)]
          congr 1; omega
        · rw [if_neg c, if_neg (by omega)]
    · rw [memRead_error s (Nat.not_lt.1 ha)]
      exact ⟨s, rfl, rfl, fun r => by rw [if_neg]; omega⟩

end Sys2Proof.Machine
end

