-- ==== Sys2Proof/Laws/PerInstr.lean ====
section
/-! SUPPORT. A law for every instruction as syntax: its encoded word carries the fixed bits of its row of the opcode table. -/

namespace Sys2Proof.Laws.EncodedRow

/-- The mask and the pattern of the instruction's row in spec/opcode_table.json (R97); `INVALID` has no fixed bits. -/
def row (i : Instr) : Word16 × Word16 :=
  match i with
  | .noOp => (0xF0FF, 0x0000)
  | .invalidInstruction => (0x0000, 0x0000)
  | .clearDisplay => (0xF0FF, 0x00E0)
  | .ret => (0xF0FF, 0x00EE)
  | .jump _ => (0xF000, 0x1000)
  | .call _ => (0xF000, 0x2000)
  | .skipEqImm _ _ => (0xF000, 0x3000)
  | .skipNeImm _ _ => (0xF000, 0x4000)
  | .skipEqReg _ _ => (0xF00F, 0x5000)
  | .skipNeReg _ _ => (0xF000, 0x9000)
  | .loadImm _ _ => (0xF000, 0x6000)
  | .addImm _ _ => (0xF000, 0x7000)
  | .copy _ _ => (0xF00F, 0x8000)
  | .orReg _ _ => (0xF00F, 0x8001)
  | .andReg _ _ => (0xF00F, 0x8002)
  | .xorReg _ _ => (0xF00F, 0x8003)
  | .addReg _ _ => (0xF00F, 0x8004)
  | .subReg _ _ => (0xF00F, 0x8005)
  | .subRegReverse _ _ => (0xF00F, 0x8007)
  | .shiftRight _ _ => (0xF00F, 0x8006)
  | .shiftLeft _ _ => (0xF00F, 0x800E)
  | .setAddress _ => (0xF000, 0xA000)
  | .jumpIndexed _ => (0xF000, 0xB000)
  | .random _ _ => (0xF000, 0xC000)
  | .draw _ _ _ => (0xF000, 0xD000)
  | .skipKeyDown _ => (0xF0FF, 0xE09E)
  | .skipKeyUp _ => (0xF0FF, 0xE0A1)
  | .readDelay _ => (0xF0FF, 0xF007)
  | .waitKey _ => (0xF0FF, 0xF00A)
  | .setDelay _ => (0xF0FF, 0xF015)
  | .setSound _ => (0xF0FF, 0xF018)
  | .addAddress _ => (0xF0FF, 0xF01E)
  | .fontAddress _ => (0xF0FF, 0xF029)
  | .storeBcd _ => (0xF0FF, 0xF033)
  | .storeRegs _ => (0xF0FF, 0xF055)
  | .loadRegs _ => (0xF0FF, 0xF065)

/-- The encoded word belongs to the instruction's row. -/
def Statement (i : Instr) : Prop := encode i &&& (row i).1 = (row i).2

/-- The law from the four nibbles of the word. -/
theorem statement_of_nibbles {i : Instr} {w mask pattern : Word16} (hw : encode i = w) (hr : row i = (mask, pattern))
    (h : opOf w &&& opOf mask = opOf pattern ∧ xOf w &&& xOf mask = xOf pattern ∧
      yOf w &&& yOf mask = yOf pattern ∧ nOf w &&& nOf mask = nOf pattern) : Statement i := by
  rw [Statement, hw, hr]; exact (and_eq_iff w mask pattern).2 h

theorem noOp : Statement (.noOp) :=
  statement_of_nibbles rfl rfl (by simp [encode])

theorem invalidInstruction : Statement (.invalidInstruction) :=
  statement_of_nibbles rfl rfl (by simp [encode])

theorem clearDisplay : Statement (.clearDisplay) :=
  statement_of_nibbles rfl rfl (by simp [encode])

theorem ret : Statement (.ret) :=
  statement_of_nibbles rfl rfl (by simp [encode])

theorem jump (nnn : Addr12) : Statement (.jump nnn) :=
  statement_of_nibbles rfl rfl (by simp [encode])

theorem call (nnn : Addr12) : Statement (.call nnn) :=
  statement_of_nibbles rfl rfl (by simp [encode])

theorem skipEqImm (x : Nibble) (kk : Byte) : Statement (.skipEqImm x kk) :=
  statement_of_nibbles rfl rfl (by simp [encode])

theorem skipNeImm (x : Nibble) (kk : Byte) : Statement (.skipNeImm x kk) :=
  statement_of_nibbles rfl rfl (by simp [encode])

theorem skipEqReg (x y : Nibble) : Statement (.skipEqReg x y) :=
  statement_of_nibbles rfl rfl (by simp [encode])

theorem skipNeReg (x y : Nibble) : Statement (.skipNeReg x y) :=
  statement_of_nibbles rfl rfl (by simp [encode])

theorem loadImm (x : Nibble) (kk : Byte) : Statement (.loadImm x kk) :=
  statement_of_nibbles rfl rfl (by simp [encode])

theorem addImm (x : Nibble) (kk : Byte) : Statement (.addImm x kk) :=
  statement_of_nibbles rfl rfl (by simp [encode])

theorem copy (x y : Nibble) : Statement (.copy x y) :=
  statement_of_nibbles rfl rfl (by simp [encode])

theorem orReg (x y : Nibble) : Statement (.orReg x y) :=
  statement_of_nibbles rfl rfl (by simp [encode])

theorem andReg (x y : Nibble) : Statement (.andReg x y) :=
  statement_of_nibbles rfl rfl (by simp [encode])

theorem xorReg (x y : Nibble) : Statement (.xorReg x y) :=
  statement_of_nibbles rfl rfl (by simp [encode])

theorem addReg (x y : Nibble) : Statement (.addReg x y) :=
  statement_of_nibbles rfl rfl (by simp [encode])

theorem subReg (x y : Nibble) : Statement (.subReg x y) :=
  statement_of_nibbles rfl rfl (by simp [encode])

theorem subRegReverse (x y : Nibble) : Statement (.subRegReverse x y) :=
  statement_of_nibbles rfl rfl (by simp [encode])

theorem shiftRight (x y : Nibble) : Statement (.shiftRight x y) :=
  statement_of_nibbles rfl rfl (by simp [encode])

theorem shiftLeft (x y : Nibble) : Statement (.shiftLeft x y) :=
  statement_of_nibbles rfl rfl (by simp [encode])

theorem setAddress (nnn : Addr12) : Statement (.setAddress nnn) :=
  statement_of_nibbles rfl rfl (by simp [encode])

theorem jumpIndexed (nnn : Addr12) : Statement (.jumpIndexed nnn) :=
  statement_of_nibbles rfl rfl (by simp [encode])

theorem random (x : Nibble) (kk : Byte) : Statement (.random x kk) :=
  statement_of_nibbles rfl rfl (by simp [encode])

theorem draw (x y n : Nibble) : Statement (.draw x y n) :=
  statement_of_nibbles rfl rfl (by simp [encode])

theorem skipKeyDown (x : Nibble) : Statement (.skipKeyDown x) :=
  statement_of_nibbles rfl rfl (by simp [encode])

theorem skipKeyUp (x : Nibble) : Statement (.skipKeyUp x) :=
  statement_of_nibbles rfl rfl (by simp [encode])

theorem readDelay (x : Nibble) : Statement (.readDelay x) :=
  statement_of_nibbles rfl rfl (by simp [encode])

theorem waitKey (x : Nibble) : Statement (.waitKey x) :=
  statement_of_nibbles rfl rfl (by simp [encode])

theorem setDelay (x : Nibble) : Statement (.setDelay x) :=
  statement_of_nibbles rfl rfl (by simp [encode])

theorem setSound (x : Nibble) : Statement (.setSound x) :=
  statement_of_nibbles rfl rfl (by simp [encode])

theorem addAddress (x : Nibble) : Statement (.addAddress x) :=
  statement_of_nibbles rfl rfl (by simp [encode])

theorem fontAddress (x : Nibble) : Statement (.fontAddress x) :=
  statement_of_nibbles rfl rfl (by simp [encode])

theorem storeBcd (x : Nibble) : Statement (.storeBcd x) :=
  statement_of_nibbles rfl rfl (by simp [encode])

theorem storeRegs (x : Nibble) : Statement (.storeRegs x) :=
  statement_of_nibbles rfl rfl (by simp [encode])

theorem loadRegs (x : Nibble) : Statement (.loadRegs x) :=
  statement_of_nibbles rfl rfl (by simp [encode])

end Sys2Proof.Laws.EncodedRow
end

