-- ==== Sys2Proof/Laws/Ports.lean ====
section
/-! SUPPORT. The ports (R239 to R243): a request changes nothing but the ports, and what it leaves there. -/

namespace Sys2Proof.Machine

/-- Two states that agree in all but the ports. -/
theorem sameCore_iff {s t : State} : SameCore s t ↔
    t.v = s.v ∧ t.flag = s.flag ∧ t.i = s.i ∧ t.pc = s.pc ∧ t.sp = s.sp ∧ t.stack = s.stack ∧ t.dt = s.dt ∧
      t.st = s.st ∧ t.mem = s.mem := by
  cases s; cases t; simp [SameCore]

@[simp] theorem sameCore_countAnswer (s : State) : SameCore s (countAnswer s) := rfl

theorem sameCore_rand8 (s : State) : SameCore s (rand8 s).2 := by
  unfold rand8; split <;> rfl

theorem sameCore_keyDown (s : State) (k : Byte) : SameCore s (keyDown s k).2 := by
  unfold keyDown; split <;> rfl

theorem sameCore_lastKey (s : State) : SameCore s (lastKey s).2 := by
  unfold lastKey; split <;> rfl

theorem sameCore_drawSprite (s : State) (x y : Byte) (rows : List Byte) : SameCore s (drawSprite s x y rows).2 := by
  unfold drawSprite; split <;> rfl

theorem sameCore_clearDisplay (s : State) : SameCore s (clearDisplay s) := rfl

/-- The random port: the attached byte, or the free value (R243). -/
theorem rand8_attached (s : State) {b : Byte} {bs : List Byte} (h : s.ports.randomBytes = b :: bs) :
    rand8 s = (b, countAnswer { s with ports := { s.ports with randomBytes := bs } }) := by simp [rand8, h]

theorem rand8_free (s : State) (h : s.ports.randomBytes = []) :
    rand8 s = (Config.freeRandom s.ports.answered, countAnswer s) := by simp [rand8, h]

/-- The input port: identifiers above 15 are not asked about (R242, D16). -/
theorem keyDown_above (s : State) {k : Byte} (h : 15 < k.toNat) : keyDown s k = (false, s) := by simp [keyDown, h]

theorem keyDown_key (s : State) {k : Byte} (h : k.toNat ≤ 15) :
    keyDown s k = (askKey s (k.setWidth 4), countAnswer s) := by simp [keyDown, Nat.not_lt.2 h]

/-- The last-key request leaves only its count (R242). -/
theorem lastKey_snd (s : State) : (lastKey s).2 = countAnswer s := by unfold lastKey; split <;> rfl

/-- The draw request leaves itself in the log, and counts (R240). -/
theorem drawSprite_log (s : State) (x y : Byte) (rows : List Byte) :
    (drawSprite s x y rows).2.ports.displayLog = .drawSprite x y rows :: s.ports.displayLog := by
  unfold drawSprite; split <;> rfl

/-! ## The reference display (R248) -/

theorem invertPixels_length (pixels : List Bool) (places : List Nat) :
    (invertPixels pixels places).1.length = pixels.length := by
  induction places generalizing pixels with
  | nil => rfl
  | cons p rest ih => simp [invertPixels, ih]

/-- What inverting leaves at a pixel: it is inverted once for each time its place stands in the list. -/
theorem getD_invertPixels (pixels : List Bool) (places : List Nat) {j : Nat} (h : j < pixels.length) :
    (invertPixels pixels places).1.getD j false = (pixels.getD j false != decide (places.count j % 2 = 1)) := by
  induction places generalizing pixels with
  | nil => simp [invertPixels]
  | cons p rest ih =>
    have hpar : decide ((rest.count j + 1) % 2 = 1) = !decide (rest.count j % 2 = 1) := by
      rw [← decide_not]; exact decide_eq_decide.2 (by omega)
    rw [invertPixels, ih _ (by simpa using h)]
    by_cases e : p = j
    · subst e
      rw [List.count_cons_self, hpar]
      simp [h]
    · simp [e]

/-- When inverting meets a set pixel: a place holds one before, or stands in the list twice. -/
theorem invertPixels_snd (pixels : List Bool) (places : List Nat) :
    (invertPixels pixels places).2 = true ↔
      ∃ j < pixels.length, (1 ≤ places.count j ∧ pixels.getD j false = true) ∨ 2 ≤ places.count j := by
  induction places generalizing pixels with
  | nil => simp [invertPixels]
  | cons p rest ih =>
    simp only [invertPixels, Bool.or_eq_true, ih, List.length_set]
    by_cases hp : p < pixels.length
    · have hset : ∀ j, (pixels.set p (!pixels.getD p false)).getD j false =
          if j = p then !pixels.getD p false else pixels.getD j false := fun j => by
        by_cases e : j = p
        · subst e; simp [hp]
        · simp [e, Ne.symm e]
      simp only [hset, List.count_cons, beq_iff_eq]
      constructor
      · rintro (h | ⟨j, hj, h⟩)
        · exact ⟨p, hp, .inl ⟨by simp, h⟩⟩
        · refine ⟨j, hj, ?_⟩
          by_cases e : j = p
          · subst e; simp only [if_true] at h ⊢; omega
          · simpa [e, Ne.symm e] using h
      · rintro ⟨j, hj, h⟩
        by_cases e : j = p
        · subst e
          simp only [if_true] at h
          by_cases hb : pixels.getD j false = true
          · exact .inl hb
          · have h2 : 2 ≤ rest.count j + 1 := h.elim (fun h => absurd h.2 hb) id
            exact .inr ⟨j, hj, .inl ⟨by omega, by simpa using hb⟩⟩
        · exact .inr ⟨j, hj, by simpa [e, Ne.symm e] using h⟩
    · have hset : pixels.set p (!pixels.getD p false) = pixels := List.set_eq_of_length_le (Nat.not_lt.1 hp)
      have hold : pixels.getD p false = false := by simp [List.getElem?_eq_none (Nat.not_lt.1 hp)]
      rw [hset, hold]
      simp only [Bool.false_eq_true, false_or]
      refine exists_congr fun j => and_congr_right fun hj => ?_
      rw [List.count_cons_of_ne (show p ≠ j by omega)]

/-- The places of a sprite, row by row. -/
theorem spritePlaces_eq_flatMap (d : Display) (x y : Byte) (r : Nat) (rows : List Byte) :
    Display.spritePlaces d x y r rows =
      (List.range rows.length).flatMap fun k => Display.rowPlaces d x y (r + k) (rows.getD k 0#8) := by
  induction rows generalizing r with
  | nil => rfl
  | cons row rest ih =>
    simp [Display.spritePlaces, ih, List.range_succ_eq_map, List.flatMap_map, Nat.add_assoc, Nat.add_comm 1]

theorem wf_blank (w h : Nat) : (Display.blank w h).wf = true := by simp [Display.blank, Display.wf]

theorem wf_cleared (d : Display) : d.cleared.wf = true := wf_blank _ _

/-- Drawing keeps the buffer whole. -/
theorem wf_draw {d : Display} (h : d.wf = true) (x y : Byte) (rows : List Byte) : (d.draw x y rows).1.wf = true := by
  simpa [Display.wf, Display.draw, invertPixels_length] using h

end Sys2Proof.Machine
end

