-- ==== Sys2Proof/Laws/Stack.lean ====
section
/-! SUPPORT. The call stack (R33, R34): what a push and a pop can do. -/

namespace Sys2Proof.Machine

/-- A push with room: the entry at the old stack pointer, and the pointer one up. -/
theorem push_ok (s : State) (w : Word16) (h : s.sp.val < 16) :
    push s w = .ok { s with stack := s.stack.set s.sp.val w h, sp := ⟨s.sp.val + 1, Nat.succ_lt_succ h⟩ } := by
  simp [push, h]

/-- A push on the full stack. -/
theorem push_error (s : State) (w : Word16) (h : ¬ s.sp.val < 16) : push s w = .error (.stackOverflow s) := by
  simp [push, h, raise]

/-- A pop from the empty stack. -/
theorem pop_error (s : State) (h : s.sp.val = 0) : pop s = .error (.stackUnderflow s) := by
  unfold pop
  split
  · rfl
  · next n e => omega

/-- A pop: the entry under the stack pointer, and the pointer one down. -/
theorem pop_ok (s : State) {n : Nat} (h : s.sp.val = n + 1) (hn : n < 16) :
    pop s = .ok (s.stack[n]'hn, { s with sp := ⟨n, Nat.lt_succ_of_lt hn⟩ }) := by
  unfold pop
  split
  · next e => omega
  · next m e =>
    obtain rfl : m = n := by omega
    rfl

end Sys2Proof.Machine
end

