-- ==== Sys2Proof/Laws/Step.lean ====
section
/-! SUPPORT. What a step and the operations that can fault can do, said once. -/

namespace Sys2Proof.Machine

/-! ## The step (R110, R111) -/

/-- A step whose fetch succeeds is the meaning of the word at `PC`. -/
theorem step_of_fetch (s : State) (h : s.pc.toNat < 4095) : step s = exec (decodeWord (wordAtPc s)) s := by
  rw [step, fetchWord_ok s h]

/-- A step whose fetch fails faults and leaves the state as it was. -/
theorem step_of_no_fetch (s : State) (h : 4095 ≤ s.pc.toNat) : step s = .fault (.outOfBounds s) := by
  rw [step, fetchWord_error s h]

/-- A step that completes ran the word at `PC`. -/
theorem step_next {s t : State} (h : step s = .next t) :
    s.pc.toNat < 4095 ∧ exec (decodeWord (wordAtPc s)) s = .next t := by
  by_cases hp : s.pc.toNat < 4095
  · exact ⟨hp, step_of_fetch s hp ▸ h⟩
  · rw [step_of_no_fetch s (Nat.not_lt.1 hp)] at h; cases h

/-- A step that faults failed its fetch, or the operation's own check. -/
theorem step_fault {s : State} {f : Fault} (h : step s = .fault f) :
    (4095 ≤ s.pc.toNat ∧ f = .outOfBounds s) ∨
      (s.pc.toNat < 4095 ∧ exec (decodeWord (wordAtPc s)) s = .fault f) := by
  by_cases hp : s.pc.toNat < 4095
  · exact .inr ⟨hp, step_of_fetch s hp ▸ h⟩
  · rw [step_of_no_fetch s (Nat.not_lt.1 hp)] at h
    cases h; exact .inl ⟨Nat.not_lt.1 hp, rfl⟩

/-! ## The operands of the transfers -/

@[simp] theorem memAddr_zero (s : State) : memAddr s 0 = s.i.toNat := rfl

@[simp] theorem regsUpTo_length (s : State) (x : Nibble) : (regsUpTo s x).length = x.toNat + 1 := by
  have := x.isLt
  simp [regsUpTo]; omega

theorem regsUpTo_getD (s : State) (x r : Nibble) (h : r.toNat ≤ x.toNat) : (regsUpTo s x).getD r.toNat 0#8 = getV s r := by
  have hr : r.toNat < 16 := r.isLt
  have h' : r.toNat < x.toNat + 1 := by omega
  simp [regsUpTo, List.getD_eq_getElem?_getD, h', getV, hr]

@[simp] theorem bcdDigits_length (b : Byte) : (bcdDigits b).length = 3 := rfl

/-! ## The operations that can fault -/

/-- `CALL` with room on the stack (R135). -/
theorem exec_call_next (s : State) (nnn : Addr12) (h : s.sp.val < 16) :
    exec (.call nnn) s = .next (setPc { s with
      stack := s.stack.set s.sp.val (nextPc s) h, sp := ⟨s.sp.val + 1, Nat.succ_lt_succ h⟩ } (addrOperand nnn)) := by
  simp [exec, execCall, push_ok s _ h]

/-- `CALL` on the full stack (R222). -/
theorem exec_call_fault (s : State) (nnn : Addr12) (h : ¬ s.sp.val < 16) :
    exec (.call nnn) s = .fault (.stackOverflow s) := by simp [exec, execCall, push_error s _ h]

/-- `RET` from a stack that holds an entry (R133). -/
theorem exec_ret_next (s : State) {n : Nat} (h : s.sp.val = n + 1) (hn : n < 16) :
    exec .ret s = .next (setPc { s with sp := ⟨n, Nat.lt_succ_of_lt hn⟩ } (s.stack[n]'hn)) := by
  simp [exec, execRet, pop_ok s h hn]

/-- `RET` from the empty stack (R223). -/
theorem exec_ret_fault (s : State) (h : s.sp.val = 0) : exec .ret s = .fault (.stackUnderflow s) := by
  simp [exec, execRet, pop_error s h]

/-- `DRW` whose rows lie in memory (R180). -/
theorem exec_draw_next (s : State) (x y n : Nibble) (h : n.toNat = 0 ∨ s.i.toNat + n.toNat ≤ 4096) :
    exec (.draw x y n) s =
      .next (advance (setFlag (drawSprite s (getV s x) (getV s y) (bytesFrom s s.i.toNat n.toNat)).2
        (collisionFlag (drawSprite s (getV s x) (getV s y) (bytesFrom s s.i.toNat n.toNat)).1))) := by
  simp [exec, execDraw, readBytes_ok s h]

/-- `DRW` whose rows run past memory (R221). -/
theorem exec_draw_fault (s : State) (x y n : Nibble) (h0 : 0 < n.toNat) (h : 4096 < s.i.toNat + n.toNat) :
    exec (.draw x y n) s = .fault (.outOfBounds s) := by
  simp [exec, execDraw, readBytes_error s h0 h]

/-- `LD B, Vx` in memory (R207). -/
theorem exec_storeBcd_next (s : State) (x : Nibble) (h : s.i.toNat + 3 ≤ 4096) :
    exec (.storeBcd x) s =
      .next (advance { s with mem := writeBytes s.mem s.i.toNat (bcdDigits (getV s x)) }) := by
  simp [exec, execStoreBcd, finishTransfer, 
    storeBytes_ok s (a := s.i.toNat) (bytes := bcdDigits (getV s x)) (.inr h)]

/-- `LD B, Vx` past memory (R221, R226). -/
theorem exec_storeBcd_fault (s : State) (x : Nibble) (h : 4096 < s.i.toNat + 3) :
    exec (.storeBcd x) s = .fault (.outOfBounds { s with
      mem := writeBytes s.mem s.i.toNat ((bcdDigits (getV s x)).take (4096 - s.i.toNat)) }) := by
  simp [exec, execStoreBcd, finishTransfer,
    storeBytes_error s (a := s.i.toNat) (bytes := bcdDigits (getV s x)) (by simp [bcdDigits]) (by simpa using h)]

/-- `LD [I], Vx` in memory (R208). -/
theorem exec_storeRegs_next (s : State) (x : Nibble) (h : s.i.toNat + (x.toNat + 1) ≤ 4096) :
    exec (.storeRegs x) s = .next (advance { s with mem := writeBytes s.mem s.i.toNat (regsUpTo s x) }) := by
  simp [exec, execStoreRegs, finishTransfer, 
    storeBytes_ok s (a := s.i.toNat) (bytes := regsUpTo s x) (.inr (by simpa using h))]

/-- `LD [I], Vx` past memory (R221, R226). -/
theorem exec_storeRegs_fault (s : State) (x : Nibble) (h : 4096 < s.i.toNat + (x.toNat + 1)) :
    exec (.storeRegs x) s = .fault (.outOfBounds { s with
      mem := writeBytes s.mem s.i.toNat ((regsUpTo s x).take (4096 - s.i.toNat)) }) := by
  simp [exec, execStoreRegs, finishTransfer,
    storeBytes_error s (a := s.i.toNat) (bytes := regsUpTo s x)
      (fun e => by simpa using congrArg List.length e) (by simpa using h)]

/-- `LD Vx, [I]` in memory (R209). -/
theorem exec_loadRegs_next (s : State) (x : Nibble) (h : s.i.toNat + (x.toNat + 1) ≤ 4096) :
    ∃ t, exec (.loadRegs x) s = .next (advance t) ∧ t = { s with v := t.v } ∧
      ∀ r : Nibble, getV t r = if r.toNat ≤ x.toNat then memByte s (s.i.toNat + r.toNat) else getV s r := by
  have := x.isLt
  obtain ⟨t, h1, h2, h3⟩ := loadRegsFrom_ok s (a := s.i.toNat) (k := 0) (n := x.toNat + 1) (by omega) (.inr h)
  refine ⟨t, by simp [exec, execLoadRegs, finishTransfer, h1], h2, fun r => ?_⟩
  rw [h3]
  simp

/-- `LD Vx, [I]` past memory (R221, R226). -/
theorem exec_loadRegs_fault (s : State) (x : Nibble) (h : 4096 < s.i.toNat + (x.toNat + 1)) :
    ∃ t, exec (.loadRegs x) s = .fault (.outOfBounds t) ∧ t = { s with v := t.v } ∧
      ∀ r : Nibble, getV t r =
        if r.toNat ≤ x.toNat ∧ s.i.toNat + r.toNat < 4096 then memByte s (s.i.toNat + r.toNat) else getV s r := by
  have := x.isLt
  obtain ⟨t, h1, h2, h3⟩ := loadRegsFrom_error s (a := s.i.toNat) (k := 0) (n := x.toNat + 1) (by omega) (by omega) h
  refine ⟨t, by simp [exec, execLoadRegs, finishTransfer, h1], h2, fun r => ?_⟩
  rw [h3]
  simp

/-- `LD Vx, K` with no key reported (R201). -/
theorem exec_waitKey_none (s : State) (x : Nibble) (h : (lastKey s).1 = none) :
    exec (.waitKey x) s = .next (countAnswer s) := by
  have e : lastKey s = (none, countAnswer s) := Prod.ext h (lastKey_snd s)
  simp [exec, execWaitKey, e]

/-- `LD Vx, K` with a key reported (R201). -/
theorem exec_waitKey_some (s : State) (x k : Nibble) (h : (lastKey s).1 = some k) :
    exec (.waitKey x) s = .next (advance (setV (countAnswer s) x (keyOperand k))) := by
  have e : lastKey s = (some k, countAnswer s) := Prod.ext h (lastKey_snd s)
  simp [exec, execWaitKey, e]

/-- Every way an operation's apply phase can fault, with the state it leaves (R117, R226). -/
theorem exec_fault {i : Instr} {s : State} {f : Fault} (h : exec i s = .fault f) :
    (∃ nnn, i = .call nnn ∧ s.sp.val = 16 ∧ f = .stackOverflow s) ∨
    (i = .ret ∧ s.sp.val = 0 ∧ f = .stackUnderflow s) ∨
    (∃ x y n, i = .draw x y n ∧ 0 < n.toNat ∧ 4096 < s.i.toNat + n.toNat ∧ f = .outOfBounds s) ∨
    (∃ x, i = .storeBcd x ∧ 4096 < s.i.toNat + 3 ∧ f = .outOfBounds { s with
      mem := writeBytes s.mem s.i.toNat ((bcdDigits (getV s x)).take (4096 - s.i.toNat)) }) ∨
    (∃ x, i = .storeRegs x ∧ 4096 < s.i.toNat + (x.toNat + 1) ∧ f = .outOfBounds { s with
      mem := writeBytes s.mem s.i.toNat ((regsUpTo s x).take (4096 - s.i.toNat)) }) ∨
    (∃ x t, i = .loadRegs x ∧ 4096 < s.i.toNat + (x.toNat + 1) ∧ f = .outOfBounds t ∧ t = { s with v := t.v } ∧
      ∀ r : Nibble, getV t r =
        if r.toNat ≤ x.toNat ∧ s.i.toNat + r.toNat < 4096 then memByte s (s.i.toNat + r.toNat) else getV s r) := by
  cases i
  case call nnn =>
    by_cases c : s.sp.val < 16
    · rw [exec_call_next s nnn c] at h; cases h
    · have := s.sp.isLt
      rw [exec_call_fault s nnn c] at h; cases h
      exact .inl ⟨_, rfl, by omega, rfl⟩
  case ret =>
    by_cases c : s.sp.val = 0
    · rw [exec_ret_fault s c] at h; cases h
      exact .inr (.inl ⟨rfl, c, rfl⟩)
    · obtain ⟨n, hn⟩ := Nat.exists_eq_succ_of_ne_zero c
      have := s.sp.isLt
      rw [exec_ret_next s hn (by omega)] at h; cases h
  case draw x y n =>
    by_cases c : n.toNat = 0 ∨ s.i.toNat + n.toNat ≤ 4096
    · rw [exec_draw_next s x y n c] at h; cases h
    · rw [exec_draw_fault s x y n (by omega) (by omega)] at h; cases h
      exact .inr (.inr (.inl ⟨_, _, _, rfl, by omega, by omega, rfl⟩))
  case storeBcd x =>
    by_cases c : s.i.toNat + 3 ≤ 4096
    · rw [exec_storeBcd_next s x c] at h; cases h
    · rw [exec_storeBcd_fault s x (by omega)] at h; cases h
      exact .inr (.inr (.inr (.inl ⟨_, rfl, by omega, rfl⟩)))
  case storeRegs x =>
    by_cases c : s.i.toNat + (x.toNat + 1) ≤ 4096
    · rw [exec_storeRegs_next s x c] at h; cases h
    · rw [exec_storeRegs_fault s x (by omega)] at h; cases h
      exact .inr (.inr (.inr (.inr (.inl ⟨_, rfl, by omega, rfl⟩))))
  case loadRegs x =>
    by_cases c : s.i.toNat + (x.toNat + 1) ≤ 4096
    · obtain ⟨t, ht, -⟩ := exec_loadRegs_next s x c
      rw [ht] at h; cases h
    · obtain ⟨t, ht, h1, h2⟩ := exec_loadRegs_fault s x (by omega)
      rw [ht] at h; cases h
      exact .inr (.inr (.inr (.inr (.inr ⟨_, _, rfl, by omega, rfl, h1, h2⟩))))
  case waitKey x =>
    simp only [exec, execWaitKey] at h
    split at h <;> cases h
  all_goals cases h

/-! ## The host's placing of a word -/

/-- The step after `withFetchWord` fetches and runs exactly the word placed. -/
theorem step_withFetchWord (s : State) (nbits w : Nat) :
    step (s.withFetchWord nbits w) =
      exec (decodeWord (BitVec.ofNat 16 (w % 2 ^ nbits))) (s.withFetchWord nbits w) := by
  have hp : (fetchablePc s).toNat < 4095 := by
    unfold fetchablePc
    split
    · assumption
    · decide
  rw [step_of_fetch _ hp]
  congr 2
  have h1 : (s.withFetchWord nbits w).mem = placeWord s.mem (fetchablePc s).toNat (BitVec.ofNat 16 (w % 2 ^ nbits)) := rfl
  have h2 : (s.withFetchWord nbits w).pc = fetchablePc s := rfl
  simp [wordAtPc, memByte, h1, h2, placeWord, readByte_writeByte, wordOf_wordBytes]

end Sys2Proof.Machine
end

