-- ==== Sys2Proof/Tests/Slice0.lean ====
section
/-! SUPPORT. The model's own tests. Expected values come from spec/: the words and the T and S vectors are those of
95_test_vectors.md, the others the examples of the instruction rules. The witnesses show that the hypotheses of the
statements can be met. -/

open Sys2Proof Sys2Proof.Machine

namespace Sys2Proof.Tests

/-! ## Helpers -/

/-- A state with registers set one after another. -/
def withV (s : State) (vs : List (Nibble × Byte)) : State := vs.foldl (fun t p => setV t p.1 p.2) s

/-- The reset state with some registers set. -/
def start (vs : List (Nibble × Byte)) : State := withV State.reset vs

/-- A state with bytes placed from an address up. -/
def withBytes (s : State) (a : Nat) (bytes : List Byte) : State :=
  match bytes with
  | [] => s
  | b :: rest => withBytes { s with mem := writeByte s.mem a b } (a + 1) rest

/-- A state whose stack holds these entries. -/
def withStack (s : State) (n : Fin 17) (entry : Word16) : State :=
  { s with sp := n, stack := Vector.replicate 16 entry }

/-- A state with a keypad attached. -/
def withKeys (s : State) (keys : BitVec 16) (last : Option Nibble) : State :=
  { s with ports := { s.ports with keypad := some { keys := keys, last := last } } }

/-- A state with a cleared 64 by 32 display attached. -/
def withDisplay (s : State) : State := { s with ports := { s.ports with display := some (Display.blank 64 32) } }

/-- The result code (R224) and the state an outcome leaves; 9 for a refusal. -/
def resultOf (o : Host.Outcome State Fault Refusal) : Nat × State :=
  match o with
  | .next s => (0, s)
  | .fault f => (faultCode f, faultState f)
  | .refused _ => (9, State.reset)

/-- One step on a word placed where it is fetched. -/
def run1 (w : Nat) (s : State) : Nat × State := resultOf (step (s.withFetchWord 16 w))

/-! ## Well-formed bundles -/

theorem test_wellFormed_accepts :
    (Bundle.mk 25 3 5 1 0x51 0x351).wellFormed = true ∧ (Bundle.mk 25 3 5 1 0x51 0x351).instr? = some (.draw 3 5 1) := by
  decide

theorem test_wellFormed_refuses_tag :
    (Bundle.mk 0 3 5 1 0x51 0x351).wellFormed = false ∧ (Bundle.mk 37 3 5 1 0x51 0x351).wellFormed = false ∧
      (Bundle.mk 37 3 5 1 0x51 0x351).instr? = none := by decide

theorem test_wellFormed_refuses_kk : (Bundle.mk 25 3 5 1 0x52 0x351).wellFormed = false := by decide

theorem test_wellFormed_refuses_nnn : (Bundle.mk 25 3 5 1 0x51 0x451).wellFormed = false := by decide

/-! ## Decoding: one word for each kind, its bits written out from R86 (example words of Part 4) -/

theorem test_decode_control :
    [0b0000_0000_0000_0000, 0b0000_1111_0000_0000, 0b0000_0000_1110_0000, 0b0000_0000_1110_1110,
     0b0001_0010_0011_0100, 0b0010_1010_1011_1100].map (decodeTableWord 16) =
    [some .noOp, some .noOp, some .clearDisplay, some .ret, some (.jump 0x234), some (.call 0xABC)] := by decide

theorem test_decode_skips :
    [0b0011_1010_0100_0010, 0b0100_1010_0100_0010, 0b0101_0001_0010_0000, 0b1001_0001_0010_0000,
     0b1001_0001_0010_0101].map (decodeTableWord 16) =
    [some (.skipEqImm 0xA 0x42), some (.skipNeImm 0xA 0x42), some (.skipEqReg 1 2), some (.skipNeReg 1 2),
     some (.skipNeReg 1 2)] := by decide

theorem test_decode_alu :
    [0b0110_0001_1111_1011, 0b0111_0001_0001_0000, 0b1000_0001_0010_0000, 0b1000_0001_0010_0001,
     0b1000_0001_0010_0010, 0b1000_0001_0010_0011, 0b1000_0001_0010_0100, 0b1000_0001_0010_0101,
     0b1000_0001_0010_0110, 0b1000_0001_0010_0111, 0b1000_0001_0010_1110].map (decodeTableWord 16) =
    [some (.loadImm 1 0xFB), some (.addImm 1 0x10), some (.copy 1 2), some (.orReg 1 2),
     some (.andReg 1 2), some (.xorReg 1 2), some (.addReg 1 2), some (.subReg 1 2),
     some (.shiftRight 1 2), some (.subRegReverse 1 2), some (.shiftLeft 1 2)] := by decide

theorem test_decode_address_display_input :
    [0b1010_0011_0101_0001, 0b1011_0011_0000_0000, 0b1100_0011_0000_1111, 0b1101_0011_0101_0001,
     0b1110_0001_1001_1110, 0b1110_0001_1010_0001].map (decodeTableWord 16) =
    [some (.setAddress 0x351), some (.jumpIndexed 0x300), some (.random 3 0x0F), some (.draw 3 5 1),
     some (.skipKeyDown 1), some (.skipKeyUp 1)] := by decide

theorem test_decode_timer_memory :
    [0b1111_0100_0000_0111, 0b1111_0101_0000_1010, 0b1111_0100_0001_0101, 0b1111_0100_0001_1000,
     0b1111_0010_0001_1110, 0b1111_0000_0010_1001, 0b1111_0000_0011_0011, 0b1111_0010_0101_0101,
     0b1111_0010_0110_0101].map (decodeTableWord 16) =
    [some (.readDelay 4), some (.waitKey 5), some (.setDelay 4), some (.setSound 4),
     some (.addAddress 2), some (.fontAddress 0), some (.storeBcd 0), some (.storeRegs 2),
     some (.loadRegs 2)] := by decide

/-- S3, T4, T5: words that must be invalid. -/
theorem test_decode_invalid :
    [0x5001, 0x8009, 0xE000, 0xF000, 0x00E1, 0xFFFF].map (decodeTableWord 16) =
      List.replicate 6 (some .invalidInstruction) := by decide

theorem test_decode_truncated : decode [0x60] = .error .truncated ∧ decode [] = .error .truncated := ⟨rfl, rfl⟩

/-! ## Control -/

/-- T1. -/
theorem test_nop :
    let r := run1 0x0000 { start [(0, 0x03)] with flag := 1 }
    (r.1, r.2.pc, r.2.flag, getV r.2 0) = (0, 0x0202, 1, 0x03) := by decide

/-- T5. -/
theorem test_invalid : run1 0xFFFF State.reset = (0, { State.reset.withFetchWord 16 0xFFFF with pc := 0x0202 }) := by
  decide

/-- T3. -/
theorem test_cls :
    let r := run1 0x03E0 State.reset
    (r.1, r.2.pc, r.2.ports.displayLog) = (0, 0x0202, [.clear]) := by decide

/-- T7. -/
theorem test_ret :
    let r := run1 0x00EE (withStack State.reset 2 0x0456)
    (r.1, r.2.pc, r.2.sp, r.2.stack[1]) = (0, 0x0456, 1, 0x0456) := by decide

/-- T6. -/
theorem test_ret_empty : run1 0x00EE State.reset = (3, State.reset.withFetchWord 16 0x00EE) := by decide

/-- T11. -/
theorem test_jump : let r := run1 0x1FFF State.reset; (r.1, r.2.pc) = (0, 0x0FFF) := by decide

/-- T12. -/
theorem test_jump_to_itself : run1 0x1200 State.reset = (0, State.reset.withFetchWord 16 0x1200) := by decide

/-- T9: the sixteenth entry is usable. -/
theorem test_call_sixteenth :
    let r := run1 0x2ABC (withStack State.reset 15 0x0300)
    (r.1, r.2.stack[15], r.2.stack[14], r.2.sp, r.2.pc) = (0, 0x0202, 0x0300, 16, 0x0ABC) := by decide

/-- T10. -/
theorem test_call_full :
    run1 0x2ABC (withStack State.reset 16 0x0202) = (2, (withStack State.reset 16 0x0202).withFetchWord 16 0x2ABC) := by
  decide

/-! ## Skips -/

/-- T20, T21. -/
theorem test_skip_eq_imm :
    (run1 0x3A42 (start [(0xA, 0x42)])).2.pc = 0x0204 ∧ (run1 0x3A42 (start [(0xA, 0x43)])).2.pc = 0x0202 := by decide

/-- T22, T23. -/
theorem test_skip_ne_imm :
    (run1 0x4A42 (start [(0xA, 0x42)])).2.pc = 0x0202 ∧ (run1 0x4A42 (start [(0xA, 0x43)])).2.pc = 0x0204 := by decide

/-- T24, T25. -/
theorem test_skip_eq_reg :
    (run1 0x5120 (start [(1, 0x07), (2, 0x07)])).2.pc = 0x0204 ∧
      (run1 0x5120 (start [(1, 0x07), (2, 0x08)])).2.pc = 0x0202 := by decide

/-- T28, T29. -/
theorem test_skip_ne_reg :
    (run1 0x9120 (start [(1, 0x07), (2, 0x07)])).2.pc = 0x0202 ∧
      (run1 0x9125 (start [(1, 0x07), (2, 0x08)])).2.pc = 0x0204 := by decide

/-! ## Arithmetic and logic -/

/-- T40: register 15 is not the flag. -/
theorem test_load_imm :
    let r := run1 0x6FAB { State.reset with flag := 1 }
    (r.1, getV r.2 0xF, r.2.flag, r.2.pc) = (0, 0xAB, 1, 0x0202) := by decide

/-- T41. -/
theorem test_add_imm_wraps :
    let r := run1 0x7110 { start [(1, 0xFB)] with flag := 1 }
    (r.1, getV r.2 1, r.2.flag) = (0, 0x0B, 1) := by decide

/-- T43. -/
theorem test_copy :
    let r := run1 0x8120 { start [(1, 0x01), (2, 0x99)] with flag := 1 }
    (r.1, getV r.2 1, getV r.2 2, r.2.flag) = (0, 0x99, 0x99, 1) := by decide

/-- T44. -/
theorem test_or :
    let r := run1 0x8121 { start [(1, 0xF0), (2, 0x3C)] with flag := 1 }
    (r.1, getV r.2 1, r.2.flag) = (0, 0xFC, 1) := by decide

/-- T45. -/
theorem test_and :
    let r := run1 0x8122 { start [(1, 0xF0), (2, 0x3C)] with flag := 1 }
    (r.1, getV r.2 1, r.2.flag) = (0, 0x30, 1) := by decide

/-- T46. -/
theorem test_xor :
    let r := run1 0x8123 { start [(1, 0xF0), (2, 0x3C)] with flag := 1 }
    (r.1, getV r.2 1, r.2.flag) = (0, 0xCC, 1) := by decide

/-- T48, T50. -/
theorem test_add_carry :
    (let r := run1 0x8124 (start [(1, 0xFF), (2, 0x01)]); (r.1, getV r.2 1, r.2.flag) = (0, 0x00, 1)) ∧
    (let r := run1 0x8124 { start [(1, 0x80), (2, 0x7F)] with flag := 1 }
     (r.1, getV r.2 1, r.2.flag) = (0, 0xFF, 0)) := by decide

/-- T52: register 15 as the destination, and the carry beside it. -/
theorem test_add_to_fifteen :
    let r := run1 0x8F14 (start [(0xF, 0xF0), (1, 0x20)])
    (r.1, getV r.2 0xF, r.2.flag) = (0, 0x10, 1) := by decide

/-- T53, T54. -/
theorem test_sub :
    (let r := run1 0x8125 (start [(1, 0x05), (2, 0x05)]); (r.1, getV r.2 1, r.2.flag) = (0, 0x00, 1)) ∧
    (let r := run1 0x8125 { start [(1, 0x05), (2, 0x06)] with flag := 1 }
     (r.1, getV r.2 1, r.2.flag) = (0, 0xFF, 0)) := by decide

/-- T57, T58. -/
theorem test_subn :
    (let r := run1 0x8127 (start [(1, 0x05), (2, 0x06)]); (r.1, getV r.2 1, r.2.flag) = (0, 0x01, 1)) ∧
    (let r := run1 0x8127 { start [(1, 0x06), (2, 0x05)] with flag := 1 }
     (r.1, getV r.2 1, r.2.flag) = (0, 0xFF, 0)) := by decide

/-- T60, S8. -/
theorem test_shr :
    (let r := run1 0x8126 (start [(1, 0x01), (2, 0xFF)])
     (r.1, getV r.2 1, getV r.2 2, r.2.flag) = (0, 0x00, 0xFF, 1)) ∧
    (let r := run1 0x8116 { start [(1, 0x22)] with flag := 1 }; (r.1, getV r.2 1, r.2.flag) = (0, 0x11, 0)) := by decide

/-- T63, T64. -/
theorem test_shl :
    (let r := run1 0x812E (start [(1, 0x80), (2, 0x01)])
     (r.1, getV r.2 1, getV r.2 2, r.2.flag) = (0, 0x00, 0x01, 1)) ∧
    (let r := run1 0x810E { start [(1, 0x7F)] with flag := 1 }; (r.1, getV r.2 1, r.2.flag) = (0, 0xFE, 0)) := by decide

/-! ## Address register, random -/

/-- T71. -/
theorem test_set_address : let r := run1 0xAFFF State.reset; (r.1, r.2.i, r.2.pc) = (0, 0x0FFF, 0x0202) := by decide

/-- T73: the sum is not reduced to 12 bits. -/
theorem test_jump_indexed : let r := run1 0xBFFF (start [(0, 0xFF)]); (r.1, r.2.pc) = (0, 0x10FE) := by decide

/-- T74. -/
theorem test_random :
    let r := run1 0xC30F (resultOf (act (.attachRandom [0xA7]) { start [(3, 0xFF)] with flag := 1 })).2
    (r.1, getV r.2 3, r.2.flag, r.2.pc, r.2.ports.randomBytes) = (0, 0x07, 1, 0x0202, []) := by decide

/-! ## Display -/

/-- T80. -/
theorem test_draw :
    let r := run1 0xD351 (withDisplay (start [(3, 0x02), (5, 0x01)]))
    (r.1, r.2.flag, r.2.pc, r.2.i, r.2.ports.displayLog) = (0, 0, 0x0202, 0, [.drawSprite 0x02 0x01 [0xF0]]) := by decide

/-- T82: no request is issued. -/
theorem test_draw_past_memory :
    run1 0xD122 { State.reset with i := 0x0FFF, flag := 1 } =
      (1, { State.reset with i := 0x0FFF, flag := 1 }.withFetchWord 16 0xD122) := by decide

/-- P6: the glyph 5 drawn twice at (3, 4): 14 pixels and no collision, then none and a collision. -/
theorem test_display_glyph_twice :
    let one := (Display.blank 64 32).draw 3 4 [0xF0, 0x80, 0xF0, 0x10, 0xF0]
    let two := one.1.draw 3 4 [0xF0, 0x80, 0xF0, 0x10, 0xF0]
    (one.1.pixels.count true, one.2, two.1.pixels.count true, two.2) = (14, false, 0, true) := by decide +kernel

/-- R248 by hand: `0xA0` over `0x80` drawn at (6, 3) on 8 by 4 inverts (6, 3), (0, 3) and (6, 0), and no other pixel. -/
theorem test_display_corner_pixels :
    let d := ((Display.blank 8 4).draw 6 3 [0xA0, 0x80]).1
    (d.pixel 6 3, d.pixel 0 3, d.pixel 6 0, d.pixels.count true) = (true, true, true, 3) := by decide

/-! ## Input -/

/-- T90, T92. -/
theorem test_skip_key_down :
    (run1 0xE19E (withKeys (start [(1, 0x07)]) 0x0080 none)).2.pc = 0x0204 ∧
      (run1 0xE19E (withKeys (start [(1, 0x17)]) 0x0080 none)).2.pc = 0x0202 := by decide

/-- T93, T95. -/
theorem test_skip_key_up :
    (run1 0xE1A1 (withKeys (start [(1, 0x07)]) 0x0080 none)).2.pc = 0x0202 ∧
      (run1 0xE1A1 (withKeys (start [(1, 0xFF)]) 0xFFFF none)).2.pc = 0x0204 := by decide

/-! ## Timers and memory transfers -/

/-- T100. -/
theorem test_read_delay :
    let r := run1 0xF407 { State.reset with dt := 0x3C }
    (r.1, getV r.2 4, r.2.dt, r.2.pc) = (0, 0x3C, 0x3C, 0x0202) := by decide

/-- T103, T104. -/
theorem test_wait_key :
    (let r := run1 0xF50A (withKeys (start [(5, 0x99)]) 0 none); (r.1, getV r.2 5, r.2.pc) = (0, 0x99, 0x0200)) ∧
    (let r := run1 0xF50A (withKeys (start [(5, 0x99)]) 0 (some 7)); (r.1, getV r.2 5, r.2.pc) = (0, 0x07, 0x0202)) := by
  decide

/-- T101. -/
theorem test_set_delay : let r := run1 0xF415 (start [(4, 0x3C)]); (r.1, r.2.dt, r.2.st) = (0, 0x3C, 0) := by decide

/-- T102. -/
theorem test_set_sound :
    let r := run1 0xF418 (start [(4, 0x05)]); (r.1, r.2.st, r.2.dt, tone r.2) = (0, 0x05, 0, true) := by decide

/-- T106, T107. -/
theorem test_add_address :
    (run1 0xF21E { start [(2, 0x01)] with i := 0x0FFF }).2.i = 0x1000 ∧
      (run1 0xF21E { start [(2, 0x02)] with i := 0xFFFF }).2.i = 0x0001 := by decide

/-- T109, T110. -/
theorem test_font_address :
    (run1 0xF029 (start [(0, 0x0F)])).2.i = 0x004B ∧ (run1 0xF029 (start [(0, 0xFF)])).2.i = 0x04FB := by decide

/-- T111, T112. -/
theorem test_bcd :
    (let r := run1 0xF033 { start [(0, 0xFF)] with i := 0x0300 }
     (r.1, memByte r.2 0x300, memByte r.2 0x301, memByte r.2 0x302) = (0, 0x02, 0x05, 0x05)) ∧
    (let r := run1 0xF033 (withBytes { start [(0, 0x09)] with i := 0x0300 } 0x300 [7, 7, 7])
     (r.1, memByte r.2 0x300, memByte r.2 0x301, memByte r.2 0x302) = (0, 0x00, 0x00, 0x09)) := by decide

/-- T115. -/
theorem test_bcd_past_memory :
    let r := run1 0xF033 { start [(0, 0x7B)] with i := 0x0FFE }
    (r.1, memByte r.2 0xFFE, memByte r.2 0xFFF, r.2.pc) = (1, 0x01, 0x02, 0x0200) := by decide

/-- T118: sixteen bytes, and the flag is not stored. -/
theorem test_store_regs :
    let r := run1 0xFF55 { start [(0, 0xA0), (1, 0xA1), (0xF, 0xAF)] with i := 0x0400, flag := 1 }
    (r.1, memByte r.2 0x400, memByte r.2 0x401, memByte r.2 0x40F, memByte r.2 0x410, r.2.i) =
      (0, 0xA0, 0xA1, 0xAF, 0x00, 0x0400) := by decide

/-- T119. -/
theorem test_store_regs_past_memory :
    let r := run1 0xF355 { start [(0, 1), (1, 2), (2, 3), (3, 4)] with i := 0x0FFE }
    (r.1, memByte r.2 0xFFE, memByte r.2 0xFFF, r.2.pc, r.2.i) = (1, 0x01, 0x02, 0x0200, 0x0FFE) := by decide

/-- T121. -/
theorem test_load_regs :
    let r := run1 0xF065 (start [(1, 0x55)])
    (r.1, getV r.2 0, getV r.2 1, r.2.i) = (0, 0xF0, 0x55, 0x0000) := by decide

/-- T120. -/
theorem test_load_regs_past_memory :
    let r := run1 0xF365 (withBytes { start [(0, 1), (1, 2), (2, 3), (3, 4)] with i := 0x0FFE } 0xFFE [0xAA, 0xBB])
    (r.1, getV r.2 0, getV r.2 1, getV r.2 2, getV r.2 3, r.2.pc) = (1, 0xAA, 0xBB, 0x03, 0x04, 0x0200) := by decide

/-! ## The step, the placing of a word, the other agents -/

/-- T131. -/
theorem test_fetch_past_memory :
    resultOf (step (withBytes { State.reset with pc := 0x0FFF } 0xFFF [0x60])) =
      (1, withBytes { State.reset with pc := 0x0FFF } 0xFFF [0x60]) := by decide

/-- T134: an odd address. -/
theorem test_fetch_odd :
    let r := resultOf (step (withBytes { State.reset with pc := 0x0201 } 0x201 [0x61, 0x22]))
    (r.1, getV r.2 1, r.2.pc) = (0, 0x22, 0x0203) := by decide

/-- `withFetchWord` keeps a fetchable `PC`, and goes to the load address from one that is not. -/
theorem test_withFetchWord :
    (({ State.reset with pc := 0x0FFE }).withFetchWord 16 0x6011).pc = 0x0FFE ∧
      (({ State.reset with pc := 0x0FFF }).withFetchWord 16 0x6011).pc = 0x0200 := by decide

/-- T140, T141. -/
theorem test_tick :
    (let t := tick { State.reset with dt := 2, st := 1 }; (t.dt, t.st, tone t) = (1, 0, false)) ∧
      tick State.reset = State.reset := by decide

/-- T143, and the font load of R58 rewrites the same bytes. -/
theorem test_reset_again : hostReset State.reset = State.reset ∧
    resultOf (hostOutcome (loadFontTable State.reset)) = (0, State.reset) := by decide +kernel

theorem test_reset_memory_wf : Memory.wf State.reset.mem = true := by decide

/-- Writing what an unlisted address reads as takes the cell away again. -/
theorem test_write_canonical :
    writeByte (writeByte [] 0x300 0x55) 0x300 0x00 = [] ∧
      writeByte (writeByte [] 0x301 0x66) 0x300 0x55 = [(0x300, 0x55), (0x301, 0x66)] ∧
      writeByte [] 0 0xF0 = [] := by decide

/-! ## Witnesses: the hypotheses of the statements can be met -/

theorem test_witness_opcodeTable :
    (∃ r ∈ opcodeRows, r.takes 0x8124#16) ∧ ∀ r ∈ opcodeRows, ¬ r.takes 0x5001#16 := by decide

/-- The jump to itself at the load address. -/
def looping : State := State.reset.withFetchWord 16 0x1200

/-- The word `LD V0, 11` at the last place a word can be fetched from. -/
def lastWord : State := withBytes { State.reset with pc := 0x0FFE } 0xFFE [0x60, 0x11]

theorem test_witness_stepRuns :
    lastWord.pc.toNat + 1 < 4096 ∧
      decode [memByte lastWord lastWord.pc.toNat, memByte lastWord (lastWord.pc.toNat + 1)] =
        .ok (.loadImm 0 0x11, []) := ⟨by decide, rfl⟩

theorem test_witness_fetch :
    lastWord.pc.toNat < 0x0FFF ∧ (∃ w, fetchWord lastWord = .ok w ∧ w.toNat = 0x6011) ∧
      0x0FFF ≤ ({ State.reset with pc := 0x0FFF } : State).pc.toNat := ⟨by decide, ⟨_, rfl, by decide⟩, by decide⟩

theorem test_witness_completes : accessOk (.draw 1 2 0) { State.reset with i := 0xFFFF } ∧
    accessOk (.storeBcd 0) { State.reset with i := 0x0FFD } ∧ ¬ accessOk (.storeBcd 0) { State.reset with i := 0x0FFE } ∧
    accessOk (.loadRegs 15) { State.reset with i := 0x0FF0 } ∧ ¬ accessOk (.loadRegs 15) { State.reset with i := 0x0FF1 } :=
  ⟨.inl rfl, (by decide : (0xFFD : Nat) + 3 ≤ 4096), (by decide : ¬ (0xFFE : Nat) + 3 ≤ 4096),
    (by decide : (0xFF0 : Nat) + 16 ≤ 4096), (by decide : ¬ (0xFF1 : Nat) + 16 ≤ 4096)⟩

/-- Each way a step ends in `OutOfBounds`, at the first value where it does. -/
theorem test_witness_outOfBounds :
    (resultOf (step { State.reset with pc := 0x0FFF })).1 = 1 ∧ (run1 0xD121 { State.reset with i := 0x1000 }).1 = 1 ∧
      (run1 0xF033 { State.reset with i := 0x0FFE }).1 = 1 ∧ (run1 0xF155 { State.reset with i := 0x0FFF }).1 = 1 ∧
      (run1 0xF165 { State.reset with i := 0x0FFF }).1 = 1 := by decide

/-- A call on the full stack. -/
def fullCall : State := (withStack State.reset 16 0x0202).withFetchWord 16 0x2ABC

/-- A return from the empty stack. -/
def emptyRet : State := State.reset.withFetchWord 16 0x00EE

/-- A bulk store that runs past memory after two bytes. -/
def longStore : State := ({ start [(0, 1), (1, 2), (2, 3)] with i := 0x0FFE } : State).withFetchWord 16 0xF255

theorem test_witness_stackOverflow :
    fullCall.pc.toNat < 0x0FFF ∧ fullCall.sp.val = 16 ∧ decodeWord (wordAtPc fullCall) = .call 0xABC := by decide

theorem test_witness_stackUnderflow :
    emptyRet.pc.toNat < 0x0FFF ∧ emptyRet.sp.val = 0 ∧ decodeWord (wordAtPc emptyRet) = .ret := by decide

theorem test_witness_faultKeeps :
    step fullCall = .fault (.stackOverflow fullCall) ∧ (∀ x, decodeWord (wordAtPc fullCall) ≠ .storeRegs x) ∧
      (∀ x, decodeWord (wordAtPc fullCall) ≠ .storeBcd x) ∧ ∀ x, decodeWord (wordAtPc fullCall) ≠ .loadRegs x :=
  ⟨rfl, fun _ => by rintro ⟨⟩, fun _ => by rintro ⟨⟩, fun _ => by rintro ⟨⟩⟩

theorem test_witness_faultRepeats :
    step longStore = .fault (.outOfBounds (resultOf (step longStore)).2) ∧
      memByte (resultOf (step longStore)).2 longStore.pc.toNat = memByte longStore longStore.pc.toNat ∧
      memByte (resultOf (step longStore)).2 (longStore.pc.toNat + 1) = memByte longStore (longStore.pc.toNat + 1) :=
  ⟨rfl, by decide, by decide⟩

theorem test_witness_byteAccess :
    (4095 < 4096 ∧ memRead (withBytes State.reset 4095 [7]) 4095 = .ok 7) ∧
      (4096 ≤ 4096 ∧ memRead State.reset 4096 = .error (.outOfBounds State.reset)) := ⟨⟨by decide, rfl⟩, by decide, rfl⟩

/-- P4: a store over the next instruction. -/
def selfStore : State := { start [(0, 0x12), (1, 0x08)] with i := 0x0208, pc := 0x0206 }

/-- Stores that reach the next instruction: on both bytes, on both from below, on the second byte alone, on the first alone
at the top of memory, and two digits of `LD B, Vx`; and one that misses it. -/
theorem test_witness_storeSeen :
    selfStore.pc.toNat + 3 < 4096 ∧ ({ selfStore with pc := 0x0FFC, i := 0x0FFC } : State).pc.toNat + 3 < 4096 ∧
      exec (.storeRegs 1) selfStore = .next (resultOf (exec (.storeRegs 1) selfStore)).2 ∧
      (resultOf (exec (.storeRegs 5) { selfStore with i := 0x0205 })).1 = 0 ∧
      (resultOf (exec (.storeRegs 0) { selfStore with i := 0x0209 })).1 = 0 ∧
      (resultOf (exec (.storeRegs 2) { selfStore with pc := 0x0FFC, i := 0x0FFC })).1 = 0 ∧
      (resultOf (exec (.storeBcd 0) { selfStore with i := 0x0207 })).1 = 0 ∧
      (resultOf (exec (.storeRegs 1) { selfStore with i := 0x020A })).1 = 0 :=
  ⟨by decide, by decide, rfl, by decide, by decide, by decide, by decide, by decide⟩

theorem test_witness_nopAndInvalid :
    exec .noOp State.reset = .next { State.reset with pc := 0x0202 } ∧
      exec .invalidInstruction State.reset = .next { State.reset with pc := 0x0202 } := ⟨rfl, rfl⟩

theorem test_witness_cls :
    ((withDisplay State.reset).ports.display = some (Display.blank 64 32) ∧ State.reset.ports.display = none) ∧
      Instr.noOp ≠ .clearDisplay ∧ exec .noOp State.reset = .next { State.reset with pc := 0x0202 } :=
  ⟨⟨rfl, rfl⟩, by decide, rfl⟩

/-- Both clauses of `RET` and of `CALL`, at the ends of their ranges. -/
theorem test_witness_stackBounds :
    0 < (withStack State.reset 1 0x300).sp.val ∧ 0 < (withStack State.reset 16 0x300).sp.val ∧
      State.reset.sp.val = 0 ∧ State.reset.sp.val < 16 ∧ (withStack State.reset 15 0x300).sp.val < 16 ∧
      (withStack State.reset 16 0x300).sp.val = 16 := by decide

theorem test_witness_jumpToItself : (0x200 : Addr12).toNat = State.reset.pc.toNat := by decide

/-- A call, and a body that leaves the stack as it found it. -/
theorem test_witness_retUndoesCall :
    exec (.call 0x300) State.reset = .next (resultOf (exec (.call 0x300) State.reset)).2 ∧
      SameStack (resultOf (exec (.call 0x300) State.reset)).2
        (setV (resultOf (exec (.call 0x300) State.reset)).2 0 0x99) := ⟨rfl, rfl, rfl⟩

theorem test_witness_callsNest :
    (resultOf (callEach (List.replicate 16 0x200) State.reset)).1 = 0 ∧
      (resultOf (callEach (List.replicate 17 0x200) State.reset)).1 = 2 := by decide

theorem test_witness_skips :
    let s := start [(3, 0x2A), (4, 0x2B)]
    (Instr.skipEqImm 3 0x2A, true) = (Instr.skipEqImm 3 0x2A, decide ((getV s 3).toNat = (0x2A : Byte).toNat)) ∧
      (Instr.skipNeImm 3 0x2A, false) = (Instr.skipNeImm 3 0x2A, decide ((getV s 3).toNat ≠ (0x2A : Byte).toNat)) ∧
      (Instr.skipEqReg 3 4, false) = (Instr.skipEqReg 3 4, decide ((getV s 3).toNat = (getV s 4).toNat)) ∧
      (Instr.skipNeReg 3 4, true) = (Instr.skipNeReg 3 4, decide ((getV s 3).toNat ≠ (getV s 4).toNat)) := by decide

theorem test_witness_copyAndLogic :
    (Instr.xorReg 1 2 = .copy 1 2 ∧ (fun a b : Bool => a != b) = fun _ b => b) ∨
      (Instr.xorReg 1 2 = .orReg 1 2 ∧ (fun a b : Bool => a != b) = fun a b => a || b) ∨
      (Instr.xorReg 1 2 = .andReg 1 2 ∧ (fun a b : Bool => a != b) = fun a b => a && b) ∨
      (Instr.xorReg 1 2 = .xorReg 1 2 ∧ (fun a b : Bool => a != b) = fun a b => a != b) :=
  .inr (.inr (.inr ⟨rfl, rfl⟩))

theorem test_witness_random :
    (resultOf (act (.attachRandom [0xA7]) State.reset)).2.ports.randomBytes = 0xA7 :: [] ∧
      State.reset.ports.randomBytes = [] := by decide

/-- The clauses of `DRW`: no rows with `I` past memory, the last row at the last byte, the first row past it. -/
theorem test_witness_draw :
    (0 : Nibble).toNat = 0 ∧ ({ State.reset with i := 0x0FFE } : State).i.toNat + (2 : Nibble).toNat ≤ 4096 ∧
      (0 < (2 : Nibble).toNat ∧ 4096 ≤ ({ State.reset with i := 0x0FFF } : State).i.toNat + (2 : Nibble).toNat - 1) ∧
      State.reset.ports.display = none ∧ (withDisplay State.reset).ports.display = some (Display.blank 64 32) :=
  ⟨rfl, by decide, by decide, rfl, rfl⟩

/-- A whole display; a sprite in the corner wraps and its set bits still fall on different pixels, and on a narrow display two
set bits fall on one pixel. -/
theorem test_witness_collision :
    (Display.blank 8 2).wf = true ∧
      (∀ line < 2, ∀ col < 8, (spriteHits (Display.blank 8 2) 7 1 [0xFF, 0x81] col line).length ≤ 1) ∧
      spriteHits (Display.blank 8 2) 7 1 [0xFF, 0x81] 6 0 = [(1, 7)] ∧
      spriteHits (Display.blank 4 2) 1 0 [0x88] 1 0 = [(0, 0), (0, 4)] := by decide

/-- The clauses of the key skips: identifiers 15 and 16, a keypad attached or not. -/
theorem test_witness_keys :
    (getV (start [(1, 0x0F)]) 1).toNat ≤ 15 ∧ 15 < (getV (start [(1, 0x10)]) 1).toNat ∧
      (withKeys (start [(1, 0x0F)]) 0x8000 none).ports.keypad = some { keys := 0x8000, last := none } ∧
      (start [(1, 0x0F)]).ports.keypad = none := by decide

/-- The clauses of the key wait: no key, a key, no keypad. -/
theorem test_witness_waitKey :
    (withKeys State.reset 0 none).ports.keypad = some { keys := 0, last := none } ∧
      (withKeys State.reset 0 (some 0)).ports.keypad = some { keys := 0, last := some 0 } ∧
      State.reset.ports.keypad = none := by decide

/-- The clauses of `LD B, Vx`: the last address that fits, and each partial case. -/
theorem test_witness_bcd :
    ({ State.reset with i := 0x0FFD } : State).i.toNat + 2 < 4096 ∧
      (4096 ≤ ({ State.reset with i := 0x0FFE } : State).i.toNat + 2 ∧
        ({ State.reset with i := 0x0FFE } : State).i.toNat + 1 < 4096) ∧
      (4096 ≤ ({ State.reset with i := 0x0FFF } : State).i.toNat + 2 ∧
        ({ State.reset with i := 0x0FFF } : State).i.toNat < 4096) := by decide

/-- The clauses of the bulk transfers, at their common border. -/
theorem test_witness_transfers :
    ({ State.reset with i := 0x0FF0 } : State).i.toNat + (15 : Nibble).toNat < 4096 ∧
      (4096 ≤ ({ State.reset with i := 0x0FF1 } : State).i.toNat + (15 : Nibble).toNat ∧
        (14 : Nibble).toNat ≤ (15 : Nibble).toNat ∧
        ({ State.reset with i := 0x0FF1 } : State).i.toNat + (14 : Nibble).toNat < 4096) ∧
      (3 : Nibble).toNat < (4 : Nibble).toNat := by decide

/-- A store, and registers overwritten after it. -/
theorem test_witness_loadUndoesStore :
    let t := (resultOf (exec (.storeRegs 1) selfStore)).2
    exec (.storeRegs 1) selfStore = .next t ∧ SameMem t (setV t 0 0x99) ∧ (setV t 0 0x99).i = t.i :=
  ⟨rfl, fun _ => rfl, rfl⟩

theorem test_witness_writesFlag :
    (exec (.addReg 0 1) State.reset = .next (resultOf (exec (.addReg 0 1) State.reset)).2 ∧
      writesFlag (.addReg 0 1) = true) ∧
    (exec (.addImm 0 1) State.reset = .next (resultOf (exec (.addImm 0 1) State.reset)).2 ∧
      writesFlag (.addImm 0 1) = false) := ⟨⟨rfl, rfl⟩, rfl, rfl⟩

/-- An operation that writes none of `I`, the stack, the timers and memory. -/
theorem test_witness_onlyWriters :
    exec (.addImm 0 1) State.reset = .next (resultOf (exec (.addImm 0 1) State.reset)).2 ∧
      (∀ n, Instr.addImm 0 1 ≠ .setAddress n) ∧ (∀ x, Instr.addImm 0 1 ≠ .addAddress x) ∧
      (∀ x, Instr.addImm 0 1 ≠ .fontAddress x) ∧ (∀ n, Instr.addImm 0 1 ≠ .call n) ∧ Instr.addImm 0 1 ≠ .ret ∧
      (∀ x, Instr.addImm 0 1 ≠ .setDelay x) ∧ (∀ x, Instr.addImm 0 1 ≠ .setSound x) ∧
      (∀ x, Instr.addImm 0 1 ≠ .storeBcd x) ∧ ∀ x, Instr.addImm 0 1 ≠ .storeRegs x :=
  ⟨rfl, fun _ => by rintro ⟨⟩, fun _ => by rintro ⟨⟩, fun _ => by rintro ⟨⟩, fun _ => by rintro ⟨⟩, by rintro ⟨⟩,
    fun _ => by rintro ⟨⟩, fun _ => by rintro ⟨⟩, fun _ => by rintro ⟨⟩, fun _ => by rintro ⟨⟩⟩

/-- A state with a display, cells and a raised flag that meets the invariant. -/
theorem test_witness_inv :
    Inv (withBytes { (resultOf (act (.attachDisplay 4 4) State.reset)).2 with flag := 1 } 0x300 [1, 2]) :=
  ⟨by decide, by decide, fun d hd => by cases hd; rfl⟩

/-- The invariant holds where a step completes and where one faults. -/
theorem test_witness_stepInv :
    (Inv looping ∧ step looping = .next looping) ∧ (Inv fullCall ∧ step fullCall = .fault (.stackOverflow fullCall)) :=
  ⟨⟨⟨by decide, by decide, fun d hd => by cases hd⟩, rfl⟩, ⟨by decide, by decide, fun d hd => by cases hd⟩, rfl⟩

theorem test_witness_pcBounded :
    (PcBounded looping ∧ step looping = .next looping) ∧
      (PcBounded fullCall ∧ step fullCall = .fault (.stackOverflow fullCall)) :=
  ⟨⟨⟨by decide, by decide⟩, rfl⟩, ⟨by decide, by decide⟩, rfl⟩

theorem test_witness_schedule :
    (resultOf (runActions [.tick, .attachDisplay 64 32, .writeFlag true, .loadBlock 0x200 [0x61, 0x22], .step] State.reset)).1
        = 0 ∧
      (resultOf (runActions [.writePC 0x0FFF, .step, .tick] State.reset)).1 = 1 := by decide

theorem test_witness_finished : Finished looping := ⟨by decide, 0x200, by decide, by decide⟩

/-- The clauses of the block load: an empty block past memory, the last block that fits, the first that does not. -/
theorem test_witness_blockLoad :
    (([] : List Byte) = [] ∨ 5000 + ([] : List Byte).length ≤ 4096) ∧ 4094 + [1, 2].length ≤ 4096 ∧
      (4096 < 4095 + [1, 2].length ∧ ([1, 2] : List Byte) ≠ []) := by decide

/-- The longest program that fits: 3584 bytes. -/
theorem test_witness_boot : (List.replicate 3582 (0 : Byte)).length ≤ 3582 :=
  Nat.le_of_eq List.length_replicate

end Sys2Proof.Tests
end

section
/-! Proofs of the memory claims of 20_memory.md: the byte accesses of R52 and R53 and the host's block load of R56. -/

namespace Sys2Proof.Machine

/-- Settles O14: in range by the rules of the two accesses and read after write, past memory by their faults. -/
theorem byteAccessMeetsItsContract : Obligations.ByteAccessMeetsItsContract := by
  unfold Obligations.ByteAccessMeetsItsContract
  intro s a b
  refine ⟨fun ha => ⟨memRead_ok s ha, _, memWrite_ok s b ha, ?_, fun c hc => ?_, rfl⟩,
    fun ha => ⟨memRead_error s ha, memWrite_error s b ha⟩⟩
  · rw [memRead_ok _ ha, memByte, readByte_writeByte, if_pos rfl]
  · rw [memByte, readByte_writeByte, if_neg hc, memByte]

/-- A byte written as part of a block is read back at its own address. -/
theorem readByte_writeBytes_add (m : Memory) (a : Nat) {bytes : List Byte} {j : Nat} (h : j < bytes.length) :
    readByte (writeBytes m a bytes) (a + j) = bytes[j] := by
  rw [readByte_writeBytes, if_pos (by omega), Nat.add_sub_cancel_left, List.getD_eq_getElem _ _ h]

/-- A block of writes keeps every byte below it and from its end up. -/
theorem readByte_writeBytes_outside (m : Memory) {a c : Nat} {bytes : List Byte} (h : c < a ∨ a + bytes.length ≤ c) :
    readByte (writeBytes m a bytes) c = readByte m c := by
  rw [readByte_writeBytes, if_neg (by omega)]

/-- Settles O57: a block that fits writes all its bytes; one that runs past memory writes the bytes before 4096, which is the
block load of its first `4096 - start` bytes. -/
theorem blockLoadIsSequential : Obligations.BlockLoadIsSequential := by
  unfold Obligations.BlockLoadIsSequential
  intro s start bytes
  refine ⟨fun hfit => ⟨_, storeBytes_ok s hfit, rfl, fun j hj => ?_, fun a ha => ?_⟩,
    fun hpast hne => ⟨_, storeBytes_error s hne hpast, rfl, fun j hj hin => ?_, fun a ha => ?_⟩⟩
  · exact readByte_writeBytes_add s.mem start hj
  · exact readByte_writeBytes_outside s.mem ha
  · have hj' : j < (bytes.take (4096 - start)).length := by rw [List.length_take]; omega
    exact (readByte_writeBytes_add s.mem start hj').trans List.getElem_take
  · have hout : a < start ∨ start + (bytes.take (4096 - start)).length ≤ a := by rw [List.length_take]; omega
    exact readByte_writeBytes_outside s.mem hout

end Sys2Proof.Machine
end

section
/-! Proofs of the encoding claims of 30_encoding.md: the round trip, the opcode table, the invalid words and the bundle. -/

namespace Sys2Proof

/-! ## The decoder after the encoder (R102) -/

/-- The family and the selector are read back from the packed word, and so is every operand. -/
theorem decodeWord_encode (i : Instr) : decodeWord (encode i) = i := by
  cases i <;>
    simp [encode, decodeWord, decodeFamily0, decodeFamily5, decodeFamily8, decodeFamilyE, decodeFamilyF]

/-- Settles O1: the bytes of a word decode to what the word does, and the word of an instruction to the instruction. -/
theorem decodeRecoversEncodedInstruction : Obligations.DecodeRecoversEncodedInstruction := by
  unfold Obligations.DecodeRecoversEncodedInstruction
  intro i rest
  rw [encodeBytes, decode_wordBytes, decodeWord_encode]

/-! ## Invalid words (R94) -/

theorem decodeFamily0_invalid_iff (w : Word16) :
    decodeFamily0 w = .invalidInstruction ↔ kkOf w ∉ [0x00#8, 0xE0#8, 0xEE#8] := by
  unfold decodeFamily0
  split <;> simp_all

theorem decodeFamily5_invalid_iff (w : Word16) : decodeFamily5 w = .invalidInstruction ↔ nOf w ≠ 0x0#4 := by
  unfold decodeFamily5
  split <;> simp_all

theorem decodeFamily8_invalid_iff (w : Word16) : decodeFamily8 w = .invalidInstruction ↔
    nOf w ∉ [0x0#4, 0x1#4, 0x2#4, 0x3#4, 0x4#4, 0x5#4, 0x6#4, 0x7#4, 0xE#4] := by
  unfold decodeFamily8
  split <;> simp_all

theorem decodeFamilyE_invalid_iff (w : Word16) :
    decodeFamilyE w = .invalidInstruction ↔ kkOf w ∉ [0x9E#8, 0xA1#8] := by
  unfold decodeFamilyE
  split <;> simp_all

theorem decodeFamilyF_invalid_iff (w : Word16) : decodeFamilyF w = .invalidInstruction ↔
    kkOf w ∉ [0x07#8, 0x0A#8, 0x15#8, 0x18#8, 0x1E#8, 0x29#8, 0x33#8, 0x55#8, 0x65#8] := by
  unfold decodeFamilyF
  split <;> simp_all

/-- Only the five families with a selector hold invalid words. -/
theorem decodeWord_invalid_iff (w : Word16) : decodeWord w = .invalidInstruction ↔
    (opOf w = 0x0#4 ∧ decodeFamily0 w = .invalidInstruction) ∨ (opOf w = 0x5#4 ∧ decodeFamily5 w = .invalidInstruction) ∨
    (opOf w = 0x8#4 ∧ decodeFamily8 w = .invalidInstruction) ∨ (opOf w = 0xE#4 ∧ decodeFamilyE w = .invalidInstruction) ∨
    (opOf w = 0xF#4 ∧ decodeFamilyF w = .invalidInstruction) := by
  unfold decodeWord
  split
  case h_16 =>
    have hF : opOf w = 0xF#4 := opOf_eq_fifteen w fun k hk => by interval_cases k <;> assumption
    simp [hF]
  all_goals simp [*]

/-- The selectors of family 8 and the nibbles that select nothing there (R89). -/
theorem unused_family8_selectors (n : Nibble) :
    n ∉ [0x0#4, 0x1#4, 0x2#4, 0x3#4, 0x4#4, 0x5#4, 0x6#4, 0x7#4, 0xE#4] ↔
      n ∈ [0x8#4, 0x9#4, 0xA#4, 0xB#4, 0xC#4, 0xD#4, 0xF#4] := by
  revert n; decide

/-- Settles O3, family by family. -/
theorem invalidWordsAreExactlyThose : Obligations.InvalidWordsAreExactlyThose := by
  unfold Obligations.InvalidWordsAreExactlyThose
  intro w
  rw [decodeWord_invalid_iff, decodeFamily0_invalid_iff, decodeFamily5_invalid_iff, decodeFamily8_invalid_iff,
    unused_family8_selectors, decodeFamilyE_invalid_iff, decodeFamilyF_invalid_iff]

/-! ## The rows of the opcode table (R97) -/

/-- A row fixes the family and the selector of the words it takes, and they select the row's operation. -/
theorem decodeWord_of_takes (w : Word16) : ∀ r ∈ opcodeRows, r.takes w → decodeWord w = r.instr w := by
  simp only [opcodeRows, List.cons_append, List.nil_append, List.forall_mem_cons, OpcodeRow.takes, and_eq_iff]
  and_intros
  on_goal -1 => simp
  all_goals
    intro h
    simp at h
    simp [decodeWord, decodeFamily0, decodeFamily5, decodeFamily8, decodeFamilyE, decodeFamilyF, kkOf_nibbles, h]

theorem selector_family (op : Nibble)
    (h : op ∉ [0x1#4, 0x2#4, 0x3#4, 0x4#4, 0x6#4, 0x7#4, 0x9#4, 0xA#4, 0xB#4, 0xC#4, 0xD#4]) :
    op = 0x0#4 ∨ op = 0x5#4 ∨ op = 0x8#4 ∨ op = 0xE#4 ∨ op = 0xF#4 := by
  revert op; decide

/-- A word no row takes stands in a family with a selector, and its selector is none of that family's rows. -/
theorem decodeWord_of_no_row (w : Word16) (h : ∀ r ∈ opcodeRows, ¬ r.takes w) : decodeWord w = .invalidInstruction := by
  simp only [opcodeRows, List.cons_append, List.nil_append, List.forall_mem_cons, and_eq_iff] at h
  rw [decodeWord_invalid_iff]
  rcases selector_family (opOf w) (by simp at h; simp [h]) with hop | hop | hop | hop | hop
  · simp [hop] at h
    simpa [hop, decodeFamily0_invalid_iff, kkOf_eq_iff] using h
  · simp [hop] at h
    simpa [hop, decodeFamily5_invalid_iff] using h
  · simp [hop] at h
    simpa [hop, decodeFamily8_invalid_iff] using h
  · simp [hop] at h
    simpa [hop, decodeFamilyE_invalid_iff, kkOf_eq_iff] using h
  · simp [hop] at h
    simpa [hop, decodeFamilyF_invalid_iff, kkOf_eq_iff] using h

/-- Settles O2: the words a row takes, and the words no row takes. -/
theorem decoderAgreesWithOpcodeTable : Obligations.DecoderAgreesWithOpcodeTable := by
  unfold Obligations.DecoderAgreesWithOpcodeTable
  exact fun w => ⟨decodeWord_of_takes w, decodeWord_of_no_row w⟩

/-! ## The decoder's wires (R102) -/

theorem tag_bounds (i : Instr) : 1 ≤ i.tag.toNat ∧ i.tag.toNat ≤ 36 := by
  cases i <;> simp [Instr.tag]

theorem wellFormed_decodeBundle (w : Word16) : (decodeBundle w).wellFormed = true := by
  have tag : (decodeBundle w).tagOk = true := by
    obtain ⟨hlow, hhigh⟩ := tag_bounds (decodeWord w)
    simp [Bundle.tagOk, decodeBundle, hlow, hhigh]
  have kk : (decodeBundle w).kkOk = true := by
    simp only [decodeBundle, Bundle.kkOk, kkOf_toNat, yOf_toNat, nOf_toNat, beq_iff_eq]
    omega
  have nnn : (decodeBundle w).nnnOk = true := by
    simp only [decodeBundle, Bundle.nnnOk, nnnOf_toNat, xOf_toNat, yOf_toNat, nOf_toNat, beq_iff_eq]
    omega
  simp [Bundle.wellFormed, tag, kk, nnn]

/-- Every operand the decoder answers is the field of that name. -/
theorem payload_decodeBundle (w : Word16) : (decodeBundle w).payload = some (decodeWord w) := by
  unfold decodeBundle decodeWord
  split
  case h_1 => unfold decodeFamily0; split <;> rfl
  case h_6 => unfold decodeFamily5; split <;> rfl
  case h_9 => unfold decodeFamily8; split <;> rfl
  case h_15 => unfold decodeFamilyE; split <;> rfl
  case h_16 => unfold decodeFamilyF; split <;> rfl
  all_goals rfl

/-- Settles O4: the bundle passes its check, so the operation it carries is its payload. -/
theorem decoderBundleIsTheOperation : Obligations.DecoderBundleIsTheOperation := by
  unfold Obligations.DecoderBundleIsTheOperation
  intro w
  exact ⟨wellFormed_decodeBundle w, by rw [Bundle.instr?, wellFormed_decodeBundle, if_pos rfl, payload_decodeBundle]⟩

/-- Settles O5: each word decoded. -/
theorem sourceWordsDecodeAsTheSourceSays : Obligations.SourceWordsDecodeAsTheSourceSays :=
  ⟨rfl, rfl, rfl, rfl, rfl, rfl⟩

end Sys2Proof
end

section
/-! Proofs about how an operation ends (40_step_cycle.md, 60_exceptions.md section 1): when it completes, which fault it meets
otherwise, and what a fault leaves. -/

namespace Sys2Proof.Machine

/-! ## Completing or faulting (R117) -/

/-- An operation whose check passes completes, and one whose check fails faults. -/
theorem exec_outcome (i : Instr) (s : State) :
    (accessOk i s ∧ ∃ t, exec i s = .next t) ∨ (¬ accessOk i s ∧ ∃ f, exec i s = .fault f) := by
  cases i
  case call nnn =>
    by_cases h : s.sp.val < 16
    · exact .inl ⟨h, _, exec_call_next s nnn h⟩
    · exact .inr ⟨h, _, exec_call_fault s nnn h⟩
  case ret =>
    by_cases h : s.sp.val = 0
    · exact .inr ⟨by simp [accessOk, h], _, exec_ret_fault s h⟩
    · have hsp := s.sp.isLt
      exact .inl ⟨Nat.pos_of_ne_zero h, _, exec_ret_next s (n := s.sp.val - 1) (by omega) (by omega)⟩
  case draw x y n =>
    by_cases h : n.toNat = 0 ∨ s.i.toNat + n.toNat ≤ 4096
    · exact .inl ⟨h, _, exec_draw_next s x y n h⟩
    · exact .inr ⟨h, _, exec_draw_fault s x y n (by omega) (by omega)⟩
  case storeBcd x =>
    by_cases h : s.i.toNat + 3 ≤ 4096
    · exact .inl ⟨h, _, exec_storeBcd_next s x h⟩
    · exact .inr ⟨h, _, exec_storeBcd_fault s x (Nat.not_le.1 h)⟩
  case storeRegs x =>
    by_cases h : s.i.toNat + (x.toNat + 1) ≤ 4096
    · exact .inl ⟨h, _, exec_storeRegs_next s x h⟩
    · exact .inr ⟨h, _, exec_storeRegs_fault s x (Nat.not_le.1 h)⟩
  case loadRegs x =>
    by_cases h : s.i.toNat + (x.toNat + 1) ≤ 4096
    · obtain ⟨t, ht, -⟩ := exec_loadRegs_next s x h
      exact .inl ⟨h, _, ht⟩
    · obtain ⟨t, ht, -⟩ := exec_loadRegs_fault s x (Nat.not_le.1 h)
      exact .inr ⟨h, _, ht⟩
  case waitKey x =>
    cases h : (lastKey s).1 with
    | none => exact .inl ⟨trivial, _, exec_waitKey_none s x h⟩
    | some k => exact .inl ⟨trivial, _, exec_waitKey_some s x k h⟩
  all_goals exact .inl ⟨trivial, _, rfl⟩

theorem accessOk_of_next {i : Instr} {s t : State} (h : exec i s = .next t) : accessOk i s := by
  obtain ⟨hok, -⟩ | ⟨-, f, hf⟩ := exec_outcome i s
  · exact hok
  · rw [hf] at h; cases h

/-- Settles O8: the two outcomes of `exec_outcome`, neither of which is a refusal. -/
theorem execCompletesExactlyWhenAccessOk : Obligations.ExecCompletesExactlyWhenAccessOk := by
  unfold Obligations.ExecCompletesExactlyWhenAccessOk
  intro i s
  obtain ⟨hok, t, ht⟩ | ⟨hnot, f, hf⟩ := exec_outcome i s
  · exact ⟨iff_of_true ⟨t, ht⟩ hok, by simp [ht]⟩
  · exact ⟨iff_of_false (by simp [hf]) hnot, by simp [hf]⟩

/-! ## The step (R110, R111) -/

/-- Settles O6: the two bytes are the word the step fetches. -/
theorem stepRunsTheDecodedInstruction : Obligations.StepRunsTheDecodedInstruction := by
  unfold Obligations.StepRunsTheDecodedInstruction
  intro s i hpc hdec
  have hi : decodeWord (wordAtPc s) = i := by simpa [decode, wordAtPc] using hdec
  rw [step_of_fetch s (by omega), hi]

theorem wordOf_toNat (hi lo : Byte) : (wordOf hi lo).toNat = hi.toNat * 256 + lo.toNat := by
  have := hi.isLt; have := lo.isLt
  simp [wordOf]; omega

/-- Settles O7: the fetch that succeeds, and the step whose fetch fails. -/
theorem fetchFaultsExactlyPastMemory : Obligations.FetchFaultsExactlyPastMemory := by
  unfold Obligations.FetchFaultsExactlyPastMemory
  exact fun s => ⟨fun h => ⟨_, fetchWord_ok s h, wordOf_toNat _ _⟩, step_of_no_fetch s⟩

/-! ## Which fault (R221 to R223) -/

/-- Settles O9: past `PC` 0x0FFE the fetch faults; below it the operation does, and only the four that access memory can. -/
theorem outOfBoundsExactlyWhen : Obligations.OutOfBoundsExactlyWhen := by
  unfold Obligations.OutOfBoundsExactlyWhen
  intro s
  by_cases hpc : 0x0FFF ≤ s.pc.toNat
  · exact iff_of_true ⟨s, step_of_no_fetch s hpc⟩ (.inl hpc)
  rw [step_of_fetch s (Nat.not_le.1 hpc)]
  generalize decodeWord (wordAtPc s) = i
  simp only [hpc, false_or, Nat.not_le.1 hpc, true_and]
  constructor
  · rintro ⟨u, hu⟩
    obtain ⟨_, -, -, hf⟩ | ⟨-, -, hf⟩ | ⟨x, y, n, rfl, h0, hpast, -⟩ | ⟨x, rfl, hpast, -⟩ | ⟨x, rfl, hpast, -⟩ |
      ⟨x, _, rfl, hpast, -⟩ := exec_fault hu
    · cases hf
    · cases hf
    · exact ⟨h0, by omega⟩
    · exact Nat.le_of_lt_succ hpast
    · exact Nat.le_of_lt_succ hpast
    · exact Nat.le_of_lt_succ hpast
  · intro h
    split at h
    case h_1 x y n => exact ⟨_, exec_draw_fault s x y n h.1 (by omega)⟩
    case h_2 x => exact ⟨_, exec_storeBcd_fault s x (by omega)⟩
    case h_3 x => exact ⟨_, exec_storeRegs_fault s x (by omega)⟩
    case h_4 x =>
      obtain ⟨u, hu, -⟩ := exec_loadRegs_fault s x (by omega)
      exact ⟨u, hu⟩
    case h_5 => exact h.elim

/-- Settles O10: of the ways to fault only the full stack's is an overflow. -/
theorem stackOverflowExactlyForCallOnFullStack : Obligations.StackOverflowExactlyForCallOnFullStack := by
  unfold Obligations.StackOverflowExactlyForCallOnFullStack
  intro s u
  constructor
  · intro h
    obtain ⟨-, hf⟩ | ⟨hpc, hf⟩ := step_fault h
    · cases hf
    obtain ⟨nnn, hi, hsp, hu⟩ | ⟨-, -, hu⟩ | ⟨_, _, _, -, -, -, hu⟩ | ⟨_, -, -, hu⟩ | ⟨_, -, -, hu⟩ |
      ⟨_, _, -, -, hu, -⟩ := exec_fault hf <;> cases hu
    exact ⟨rfl, hpc, hsp, nnn, hi⟩
  · rintro ⟨rfl, hpc, hsp, nnn, hi⟩
    rw [step_of_fetch u hpc, hi, exec_call_fault u nnn (by omega)]

/-- Settles O11: of the ways to fault only the empty stack's is an underflow. -/
theorem stackUnderflowExactlyForRetOnEmptyStack : Obligations.StackUnderflowExactlyForRetOnEmptyStack := by
  unfold Obligations.StackUnderflowExactlyForRetOnEmptyStack
  intro s u
  constructor
  · intro h
    obtain ⟨-, hf⟩ | ⟨hpc, hf⟩ := step_fault h
    · cases hf
    obtain ⟨_, -, -, hu⟩ | ⟨hi, hsp, hu⟩ | ⟨_, _, _, -, -, -, hu⟩ | ⟨_, -, -, hu⟩ | ⟨_, -, -, hu⟩ |
      ⟨_, _, -, -, hu, -⟩ := exec_fault hf <;> cases hu
    exact ⟨rfl, hpc, hsp, hi⟩
  · rintro ⟨rfl, hpc, hsp, hi⟩
    rw [step_of_fetch u hpc, hi, exec_ret_fault u hsp]

/-! ## What a fault leaves (R116, R226) -/

/-- The bytes of a block that lie in memory keep the canonical form. -/
theorem wf_writeBytes_take {m : Memory} (hm : Memory.wf m = true) (a : Nat) (bytes : List Byte) :
    Memory.wf (writeBytes m a (bytes.take (4096 - a))) = true := by
  by_cases ha : a ≤ 4096
  · exact wf_writeBytes hm (by rw [List.length_take]; omega)
  · simpa [writeBytes, Nat.sub_eq_zero_of_le (Nat.le_of_not_le ha)] using hm

/-- A faulting operation leaves every field but registers and memory; the registers only a bulk load changes, memory only a
store, which keeps its canonical form. -/
theorem exec_fault_left {i : Instr} {s : State} {f : Fault} (h : exec i s = .fault f) :
    ∃ v m, faultState f = { s with v := v, mem := m } ∧ (Memory.wf s.mem = true → Memory.wf m = true) ∧
      ((∀ x, i ≠ .storeRegs x) → (∀ x, i ≠ .storeBcd x) → m = s.mem) ∧ ((∀ x, i ≠ .loadRegs x) → v = s.v) := by
  obtain ⟨_, -, -, rfl⟩ | ⟨-, -, rfl⟩ | ⟨_, _, _, -, -, -, rfl⟩ | ⟨x, rfl, -, rfl⟩ | ⟨x, rfl, -, rfl⟩ |
    ⟨x, t, rfl, -, rfl, ht, -⟩ := exec_fault h
  · exact ⟨s.v, s.mem, rfl, id, fun _ _ => rfl, fun _ => rfl⟩
  · exact ⟨s.v, s.mem, rfl, id, fun _ _ => rfl, fun _ => rfl⟩
  · exact ⟨s.v, s.mem, rfl, id, fun _ _ => rfl, fun _ => rfl⟩
  · exact ⟨s.v, _, rfl, fun hm => wf_writeBytes_take hm _ _, fun _ hne => absurd rfl (hne x), fun _ => rfl⟩
  · exact ⟨s.v, _, rfl, fun hm => wf_writeBytes_take hm _ _, fun hne _ => absurd rfl (hne x), fun _ => rfl⟩
  · exact ⟨t.v, s.mem, ht, id, fun _ _ => rfl, fun hne => absurd rfl (hne x)⟩

/-- What a faulting step leaves: the state as it was where the fetch failed, and what the operation leaves where not. -/
theorem step_fault_left {s : State} {f : Fault} (h : step s = .fault f) :
    ∃ v m, faultState f = { s with v := v, mem := m } ∧ (Memory.wf s.mem = true → Memory.wf m = true) ∧
      ((∀ x, decodeWord (wordAtPc s) ≠ .storeRegs x) → (∀ x, decodeWord (wordAtPc s) ≠ .storeBcd x) → m = s.mem) ∧
      ((∀ x, decodeWord (wordAtPc s) ≠ .loadRegs x) → v = s.v) := by
  obtain ⟨-, rfl⟩ | ⟨-, hf⟩ := step_fault h
  · exact ⟨s.v, s.mem, rfl, id, fun _ _ => rfl, fun _ => rfl⟩
  · exact exec_fault_left hf

/-- Settles O12: what a fault leaves is the state but for registers and memory, and each of these has its one cause. -/
theorem faultKeepsAllButPartialTransfer : Obligations.FaultKeepsAllButPartialTransfer := by
  unfold Obligations.FaultKeepsAllButPartialTransfer
  intro s f h
  obtain ⟨v, m, hleft, -, hmem, hregs⟩ := step_fault_left h
  rw [hleft]
  refine ⟨rfl, rfl, rfl, ⟨rfl, rfl⟩, ⟨rfl, rfl⟩, rfl, fun hstore hbcd a => ?_, fun hload r => ?_⟩
  · rw [memByte, hmem hstore hbcd, memByte]
  · rw [getV, getV, hregs hload]

/-! ## A fault repeated (R227) -/

/-- Writing a block again at the same place changes no byte. -/
theorem readByte_writeBytes_twice (m : Memory) (a : Nat) (bytes : List Byte) (c : Nat) :
    readByte (writeBytes (writeBytes m a bytes) a bytes) c = readByte (writeBytes m a bytes) c := by
  simp only [readByte_writeBytes]
  split <;> rfl

/-- A faulting operation, run again from the state it left, meets the same fault and repeats the part of its transfer. -/
theorem exec_fault_again {i : Instr} {s : State} {f : Fault} (h : exec i s = .fault f) :
    ∃ g, exec i (faultState f) = .fault g ∧ faultCode g = faultCode f ∧ (faultState g).pc = s.pc ∧
      SameRegs (faultState f) (faultState g) ∧ SameMem (faultState f) (faultState g) := by
  obtain ⟨_, -, -, rfl⟩ | ⟨-, -, rfl⟩ | ⟨_, _, _, -, -, -, rfl⟩ | ⟨x, rfl, hpast, rfl⟩ | ⟨x, rfl, hpast, rfl⟩ |
    ⟨x, t, rfl, hpast, rfl, ht, hread⟩ := exec_fault h
  · exact ⟨_, h, rfl, rfl, fun _ => rfl, fun _ => rfl⟩
  · exact ⟨_, h, rfl, rfl, fun _ => rfl, fun _ => rfl⟩
  · exact ⟨_, h, rfl, rfl, fun _ => rfl, fun _ => rfl⟩
  · exact ⟨_, exec_storeBcd_fault _ x hpast, rfl, rfl, fun _ => rfl, readByte_writeBytes_twice _ _ _⟩
  · exact ⟨_, exec_storeRegs_fault _ x hpast, rfl, rfl, fun _ => rfl, readByte_writeBytes_twice _ _ _⟩
  · obtain ⟨v, rfl⟩ : ∃ v, t = { s with v := v } := ⟨_, ht⟩
    obtain ⟨u, hu, hleft, hreread⟩ := exec_loadRegs_fault { s with v := v } x hpast
    obtain ⟨w, rfl⟩ : ∃ w, u = { s with v := w } := ⟨_, hleft⟩
    refine ⟨_, hu, rfl, rfl, fun r => ?_, fun _ => rfl⟩
    by_cases hin : r.toNat ≤ x.toNat ∧ s.i.toNat + r.toNat < 4096
    · exact (hreread r).trans ((if_pos hin).trans ((hread r).trans (if_pos hin)).symm)
    · exact (hreread r).trans (if_neg hin)

/-- Settles O13: the two bytes at `PC` are unchanged, so the second step runs the same operation, or fails the same fetch. -/
theorem faultRepeats : Obligations.FaultRepeats := by
  unfold Obligations.FaultRepeats
  intro s f h hhi hlo
  obtain ⟨-, rfl⟩ | ⟨hpc, hf⟩ := step_fault h
  · exact ⟨_, h, rfl, rfl, fun _ => rfl, fun _ => rfl⟩
  · obtain ⟨v, m, hleft, -⟩ := exec_fault_left hf
    have hpc' : (faultState f).pc = s.pc := by rw [hleft]
    have hword : wordAtPc (faultState f) = wordAtPc s := by rw [wordAtPc, hpc', hhi, hlo, wordAtPc]
    rw [step_of_fetch _ (hpc' ▸ hpc), hword]
    exact exec_fault_again hf

end Sys2Proof.Machine
end

section
/-! Proofs about what an operation that completes can change: said once (`Completes`), and from it the invariants and the
claims about all 36 operations. -/

namespace Sys2Proof.Machine

/-! ## What an operation that completes can change -/

/-- The ways an operation `i` that completes in `s` can change the state. -/
inductive Completes (s : State) : Instr → State → Prop
  /-- Registers, `PC` and the random and input ports; from a `PC` that can be fetched from, `PC` stays below 0x10FF (R32). -/
  | regsAndPc {i : Instr} (v : Vector Byte 16) (pc : Word16) (ports : Ports) (hi : writesFlag i = false)
      (hdisplay : ports.display = s.ports.display) (hlog : ports.displayLog = s.ports.displayLog)
      (hpc : s.pc.toNat < 4095 → pc.toNat ≤ 0x10FE) : Completes s i { s with v := v, pc := pc, ports := ports }
  /-- A result with its flag (R156 to R160). -/
  | arithmetic {i : Instr} (x : Nibble) (b : Byte) (c : Bool) (hi : writesFlag i = true) :
      Completes s i (advance (setFlag (setV s x b) (flagOf c)))
  /-- A sprite drawn, and its answer in `FLAG` (R180). -/
  | draw (x y n : Nibble) (a b : Byte) (rows : List Byte) :
      Completes s (.draw x y n) (advance (setFlag (drawSprite s a b rows).2 (flagOf (drawSprite s a b rows).1)))
  /-- The display cleared (R132). -/
  | clear : Completes s .clearDisplay (advance (clearDisplay s))
  /-- A return address pushed (R135). -/
  | call (nnn : Addr12) (h : s.sp.val < 16) : Completes s (.call nnn) (setPc { s with
      stack := s.stack.set s.sp.val (nextPc s) h, sp := ⟨s.sp.val + 1, Nat.succ_lt_succ h⟩ } (addrOperand nnn))
  /-- A return address popped (R133). -/
  | ret (n : Nat) (h : s.sp.val = n + 1) (hn : n < 16) :
      Completes s .ret (setPc { s with sp := ⟨n, Nat.lt_succ_of_lt hn⟩ } (s.stack[n]'hn))
  /-- `I` written (R170, R204, R205). -/
  | address {i : Instr} (w : Word16)
      (hi : (∃ nnn, i = .setAddress nnn) ∨ (∃ x, i = .addAddress x) ∨ ∃ x, i = .fontAddress x) :
      Completes s i (advance (setI s w))
  /-- `DT` written (R202). -/
  | delay (x : Nibble) (b : Byte) : Completes s (.setDelay x) (advance (setDT s b))
  /-- `ST` written (R203). -/
  | sound (x : Nibble) (b : Byte) : Completes s (.setSound x) (advance (setST s b))
  /-- Bytes stored at `I` (R207, R208). -/
  | store {i : Instr} (bytes : List Byte) (hi : (∃ x, i = .storeBcd x) ∨ ∃ x, i = .storeRegs x)
      (fits : s.i.toNat + bytes.length ≤ 4096) :
      Completes s i (advance { s with mem := writeBytes s.mem s.i.toNat bytes })

theorem nextPc_toNat (s : State) : (nextPc s).toNat = (s.pc.toNat + 2) % 65536 := advance_pc_toNat s

/-- A request on the random or the input port leaves the display's port alone. -/
def Asked (s u : State) : Prop :=
  ∃ p : Ports, u = { s with ports := p } ∧ p.display = s.ports.display ∧ p.displayLog = s.ports.displayLog

theorem asked_self (s : State) : Asked s s := ⟨s.ports, rfl, rfl, rfl⟩

theorem asked_countAnswer (s : State) : Asked s (countAnswer s) := ⟨_, rfl, rfl, rfl⟩

theorem asked_rand8 (s : State) : Asked s (rand8 s).2 := by
  unfold rand8
  split <;> exact ⟨_, rfl, rfl, rfl⟩

theorem asked_keyDown (s : State) (k : Byte) : Asked s (keyDown s k).2 := by
  unfold keyDown
  split
  · exact asked_self s
  · exact asked_countAnswer s

section
variable {s : State} {i : Instr} (hi : writesFlag i = false)

include hi

theorem completes_advance {u : State} (hu : Asked s u) (v : Vector Byte 16) : Completes s i (advance { u with v := v }) := by
  obtain ⟨p, rfl, hd, hl⟩ := hu
  refine .regsAndPc v (nextPc s) p hi hd hl fun h => ?_
  rw [nextPc_toNat]
  omega

theorem completes_skipIf {u : State} (hu : Asked s u) (c : Bool) : Completes s i (skipIf u c) := by
  obtain ⟨p, rfl, hd, hl⟩ := hu
  refine .regsAndPc s.v (skipIf s c).pc p hi hd hl fun h => ?_
  rw [skipIf_pc_toNat]
  split <;> omega

theorem completes_setPc {w : Word16} (hw : w.toNat ≤ 0x10FE) : Completes s i (setPc s w) :=
  .regsAndPc s.v w s.ports hi rfl rfl fun _ => hw

end

theorem addrOperand_toNat (nnn : Addr12) : (addrOperand nnn).toNat = nnn.toNat := by
  have := nnn.isLt
  simp [addrOperand]; omega

theorem indexedTarget_toNat (s : State) (nnn : Addr12) :
    (indexedTarget s nnn).toNat = nnn.toNat + (getV s 0#4).toNat := by
  have := nnn.isLt; have := (getV s 0#4).isLt
  simp [indexedTarget, regOperand16, BitVec.toNat_add, addrOperand_toNat]; omega

/-- An operation that completes does so in one of the ways of `Completes`. -/
theorem exec_next {i : Instr} {s t : State} (h : exec i s = .next t) : Completes s i t := by
  have hok := accessOk_of_next h
  cases i
  case clearDisplay => cases h; exact .clear
  case call nnn =>
    rw [exec_call_next s nnn hok] at h
    cases h; exact .call nnn hok
  case ret =>
    obtain ⟨n, hn⟩ := Nat.exists_eq_succ_of_ne_zero (Nat.ne_of_gt hok)
    have := s.sp.isLt
    rw [exec_ret_next s hn (by omega)] at h
    cases h; exact .ret n hn (by omega)
  case jump nnn =>
    cases h
    exact completes_setPc rfl (by have := nnn.isLt; rw [addrOperand_toNat]; omega)
  case jumpIndexed nnn =>
    cases h
    exact completes_setPc rfl (by
      have := nnn.isLt; have := (getV s 0#4).isLt; rw [indexedTarget_toNat]; omega)
  case skipEqImm | skipNeImm | skipEqReg | skipNeReg => cases h; exact completes_skipIf rfl (asked_self s) _
  case skipKeyDown | skipKeyUp => cases h; exact completes_skipIf rfl (asked_keyDown s _) _
  case addReg | subReg | subRegReverse | shiftRight | shiftLeft => cases h; exact .arithmetic _ _ _ rfl
  case random => cases h; exact completes_advance rfl (asked_rand8 s) _
  case draw x y n =>
    rw [exec_draw_next s x y n hok] at h
    cases h; exact .draw x y n _ _ _
  case waitKey x =>
    cases hk : (lastKey s).1 with
    | none =>
      rw [exec_waitKey_none s x hk] at h
      cases h; exact .regsAndPc s.v s.pc _ rfl rfl rfl fun hpc => by omega
    | some k =>
      rw [exec_waitKey_some s x k hk] at h
      cases h; exact completes_advance rfl (asked_countAnswer s) _
  case setAddress nnn => cases h; exact .address _ (.inl ⟨nnn, rfl⟩)
  case addAddress x => cases h; exact .address _ (.inr (.inl ⟨x, rfl⟩))
  case fontAddress x => cases h; exact .address _ (.inr (.inr ⟨x, rfl⟩))
  case setDelay => cases h; exact .delay _ _
  case setSound => cases h; exact .sound _ _
  case storeBcd x =>
    rw [exec_storeBcd_next s x hok] at h
    cases h; exact .store _ (.inl ⟨x, rfl⟩) hok
  case storeRegs x =>
    rw [exec_storeRegs_next s x hok] at h
    cases h; exact .store _ (.inr ⟨x, rfl⟩) (by rw [regsUpTo_length]; exact hok)
  case loadRegs x =>
    obtain ⟨u, hu, hv, -⟩ := exec_loadRegs_next s x hok
    rw [hu] at h
    cases h; rw [hv]; exact completes_advance rfl (asked_self s) _
  case noOp | invalidInstruction | loadImm | addImm | copy | orReg | andReg | xorReg | readDelay =>
    cases h; exact completes_advance rfl (asked_self s) _

/-! ## Who writes what (R27 to R36) -/

/-- Settles O48: the two ways of completing that write `FLAG` are those of the six operations. -/
theorem exactlySixOperationsWriteFlag : Obligations.ExactlySixOperationsWriteFlag := by
  unfold Obligations.ExactlySixOperationsWriteFlag
  intro i s t h
  cases exec_next h
  case regsAndPc hi => simp [hi]
  case arithmetic c hi => exact ⟨fun _ => flagOf_cases c, by simp [hi]⟩
  case draw => exact ⟨fun _ => flagOf_cases _, by simp [writesFlag]⟩
  case address w hi => rcases hi with ⟨_, rfl⟩ | ⟨_, rfl⟩ | ⟨_, rfl⟩ <;> simp [writesFlag]
  case store hi => rcases hi with ⟨_, rfl⟩ | ⟨_, rfl⟩ <;> simp [writesFlag]
  all_goals simp [writesFlag]

/-- A sprite request changes nothing but the ports. -/
theorem drawSprite_eq (s : State) (x y : Byte) (rows : List Byte) :
    (drawSprite s x y rows).2 = { s with ports := (drawSprite s x y rows).2.ports } := sameCore_drawSprite s x y rows

/-- Settles O50: each way of completing changes one of the four only where the operation may. -/
theorem onlyTheirWritersChangeSpecialState : Obligations.OnlyTheirWritersChangeSpecialState := by
  unfold Obligations.OnlyTheirWritersChangeSpecialState
  intro i s t h
  cases exec_next h
  case draw =>
    rw [drawSprite_eq]
    exact ⟨fun _ _ _ => rfl, fun _ _ => ⟨rfl, rfl⟩, fun _ => rfl, fun _ => rfl, fun _ _ _ => rfl⟩
  case call nnn _ =>
    exact ⟨fun _ _ _ => rfl, fun hne _ => absurd rfl (hne nnn), fun _ => rfl, fun _ => rfl, fun _ _ _ => rfl⟩
  case ret =>
    exact ⟨fun _ _ _ => rfl, fun _ hne => absurd rfl hne, fun _ => rfl, fun _ => rfl, fun _ _ _ => rfl⟩
  case address hi =>
    refine ⟨fun hset hadd hfont => ?_, fun _ _ => ⟨rfl, rfl⟩, fun _ => rfl, fun _ => rfl, fun _ _ _ => rfl⟩
    rcases hi with ⟨n, hn⟩ | ⟨x, hx⟩ | ⟨x, hx⟩
    · exact absurd hn (hset n)
    · exact absurd hx (hadd x)
    · exact absurd hx (hfont x)
  case delay x _ =>
    exact ⟨fun _ _ _ => rfl, fun _ _ => ⟨rfl, rfl⟩, fun hne => absurd rfl (hne x), fun _ => rfl, fun _ _ _ => rfl⟩
  case sound x _ =>
    exact ⟨fun _ _ _ => rfl, fun _ _ => ⟨rfl, rfl⟩, fun _ => rfl, fun hne => absurd rfl (hne x), fun _ _ _ => rfl⟩
  case store hi =>
    refine ⟨fun _ _ _ => rfl, fun _ _ => ⟨rfl, rfl⟩, fun _ => rfl, fun _ => rfl, fun hbcd hregs => ?_⟩
    rcases hi with ⟨x, hx⟩ | ⟨x, hx⟩
    · exact absurd hx (hbcd x)
    · exact absurd hx (hregs x)
  all_goals exact ⟨fun _ _ _ => rfl, fun _ _ => ⟨rfl, rfl⟩, fun _ => rfl, fun _ => rfl, fun _ _ _ => rfl⟩

/-! ## The invariant (R26, R251) -/

theorem flagOf_le_one (c : Bool) : (flagOf c).toNat ≤ 1 := by cases c <;> decide

/-- An attached display answers a sprite with a display of the same size, so with a whole buffer again. -/
theorem wf_drawSprite_display {s : State} (hs : ∀ d, s.ports.display = some d → d.wf = true) (x y : Byte)
    (rows : List Byte) : ∀ d, (drawSprite s x y rows).2.ports.display = some d → d.wf = true := by
  unfold drawSprite
  split
  next e he =>
    intro d hd
    cases hd
    exact wf_draw (hs e he) x y rows
  next => exact hs

theorem exec_next_inv {i : Instr} {s t : State} (hs : Inv s) (h : exec i s = .next t) : Inv t := by
  obtain ⟨hflag, hmem, hdisp⟩ := hs
  cases exec_next h
  case regsAndPc hd _ _ _ => exact ⟨hflag, hmem, fun d hd' => hdisp d (hd ▸ hd')⟩
  case arithmetic c _ => exact ⟨flagOf_le_one c, hmem, hdisp⟩
  case draw x y _ a b rows =>
    refine ⟨flagOf_le_one _, ?_, wf_drawSprite_display hdisp a b rows⟩
    rw [drawSprite_eq]
    exact hmem
  case clear =>
    refine ⟨hflag, hmem, fun d hd => ?_⟩
    obtain ⟨e, -, rfl⟩ := Option.map_eq_some_iff.1 hd
    exact wf_cleared e
  case store bytes fits _ => exact ⟨hflag, wf_writeBytes hmem fits, hdisp⟩
  all_goals exact ⟨hflag, hmem, hdisp⟩

theorem step_fault_inv {s : State} {f : Fault} (hs : Inv s) (h : step s = .fault f) : Inv (faultState f) := by
  obtain ⟨hflag, hmem, hdisp⟩ := hs
  obtain ⟨v, m, hleft, hwf, -⟩ := step_fault_left h
  rw [hleft]
  exact ⟨hflag, hwf hmem, hdisp⟩

/-- Settles O51: each way of completing keeps the three parts, and so does what a fault leaves. -/
theorem stepKeepsInvariant : Obligations.StepKeepsInvariant := by
  unfold Obligations.StepKeepsInvariant
  exact fun s hs => ⟨fun t h => exec_next_inv hs (step_next h).2, fun f h => step_fault_inv hs h⟩

/-! ## Bounds of `PC` and of the stack (R32) -/

/-- From a `PC` that can be fetched from, only `CALL`, which pushes the address after it, and `RET`, which pops an occupied
entry, touch the stack or take `PC` from it. -/
theorem exec_next_pcBounded {i : Instr} {s t : State} (hpc : s.pc.toNat < 4095) (hs : PcBounded s)
    (h : exec i s = .next t) : PcBounded t := by
  obtain ⟨-, hstack⟩ := hs
  have hnext : (nextPc s).toNat ≤ 0x1000 := by rw [nextPc_toNat]; omega
  have hadv : (nextPc s).toNat ≤ 0x10FE := by omega
  cases exec_next h
  case regsAndPc hpc' _ => exact ⟨hpc' hpc, hstack⟩
  case draw =>
    rw [drawSprite_eq]
    exact ⟨hadv, hstack⟩
  case call nnn hroom =>
    refine ⟨by have := nnn.isLt; rw [setPc_pc, addrOperand_toNat]; omega, fun j hj => ?_⟩
    change j.val < s.sp.val + 1 at hj
    by_cases e : s.sp.val = j.val
    · simpa [← e] using hnext
    · simpa [e] using hstack j (by omega)
  case ret n hn hlt =>
    refine ⟨Nat.le_trans (hstack ⟨n, hlt⟩ (by simp [hn])) (by decide), fun j hj => ?_⟩
    change j.val < n at hj
    exact hstack j (by omega)
  all_goals exact ⟨hadv, hstack⟩

/-- Settles O53: a step that completes had a `PC` that can be fetched from, and one that faults leaves `PC` and the stack. -/
theorem stepKeepsPcBounded : Obligations.StepKeepsPcBounded := by
  unfold Obligations.StepKeepsPcBounded
  intro s hs
  refine ⟨fun t h => ?_, fun f h => ?_⟩
  · obtain ⟨hpc, h⟩ := step_next h
    exact exec_next_pcBounded hpc hs h
  · obtain ⟨v, m, hleft, -⟩ := step_fault_left h
    rw [hleft]
    exact hs

end Sys2Proof.Machine
end

section
/-! Proofs about runs and the other agents (00_scope.md R7, 60_exceptions.md, 70_reset_and_hazards.md): schedules, ticks, reset,
boot and the finished program. -/

namespace Sys2Proof.Machine

/-! ## Schedules (R7, R65) -/

/-- The state an outcome holds, after a fault too, meets the invariant. -/
def InvAfter (o : Host.Outcome State Fault Refusal) : Prop :=
  (∀ t, o = .next t → Inv t) ∧ (∀ f, o = .fault f → Inv (faultState f))

theorem invAfter_next {t : State} (ht : Inv t) : InvAfter (.next t) :=
  ⟨fun _ h => by cases h; exact ht, nofun⟩

theorem invAfter_fault {f : Fault} (hf : Inv (faultState f)) : InvAfter (.fault f) :=
  ⟨nofun, fun _ h => by cases h; exact hf⟩

theorem invAfter_refused (r : Refusal) : InvAfter (.refused r) :=
  ⟨nofun, nofun⟩

theorem inv_hostReset {s : State} (hs : Inv s) : Inv (hostReset s) := ⟨Nat.zero_le 1, wf_reset, hs.2.2⟩

/-- A block of stores keeps the invariant, and so do the bytes stored before one that faults. -/
theorem invAfter_storeBytes {s : State} (hs : Inv s) (a : Nat) (bytes : List Byte) :
    InvAfter (hostOutcome (storeBytes s a bytes)) := by
  obtain ⟨hflag, hmem, hdisp⟩ := hs
  by_cases h : bytes = [] ∨ a + bytes.length ≤ 4096
  · have hwf : Memory.wf (writeBytes s.mem a bytes) = true := by
      rcases h with rfl | h
      · exact hmem
      · exact wf_writeBytes hmem h
    rw [storeBytes_ok s h]
    exact invAfter_next ⟨hflag, hwf, hdisp⟩
  · obtain ⟨hne, hpast⟩ := not_or.1 h
    rw [storeBytes_error s hne (Nat.not_le.1 hpast)]
    exact invAfter_fault ⟨hflag, wf_writeBytes_take hmem a bytes, hdisp⟩

/-- One byte written is a block of one byte. -/
theorem storeBytes_singleton (s : State) (a : Nat) (b : Byte) : storeBytes s a [b] = memWrite s a b := by
  rw [storeBytes]
  split
  next f hf => rw [hf]
  next t ht => rw [ht, storeBytes]

theorem invAfter_act {s : State} (hs : Inv s) (a : Action) : InvAfter (act a s) := by
  have ⟨hflag, hmem, hdisp⟩ := hs
  cases a
  case step => exact stepKeepsInvariant s hs
  case reset => exact invAfter_next (inv_hostReset hs)
  case loadBlock start bytes => exact invAfter_storeBytes hs start bytes
  case loadFontTable => exact invAfter_storeBytes hs Config.fontBase fontTable
  case writeFlag c => exact invAfter_next ⟨flagOf_le_one c, hmem, hdisp⟩
  case writeMem a b =>
    rw [act, ← storeBytes_singleton]
    exact invAfter_storeBytes hs a [b]
  case attachDisplay w h => exact invAfter_next ⟨hflag, hmem, fun d hd => by cases hd; exact wf_blank w h⟩
  case detachDisplay => exact invAfter_next ⟨hflag, hmem, fun d hd => by cases hd⟩
  all_goals exact invAfter_next ⟨hflag, hmem, hdisp⟩

theorem invAfter_runActions {s : State} (hs : Inv s) (actions : List Action) : InvAfter (runActions actions s) := by
  induction actions generalizing s with
  | nil => exact invAfter_next hs
  | cons a rest ih =>
    obtain ⟨hnext, hfault⟩ := invAfter_act hs a
    unfold runActions
    split
    next t ht => exact ih (hnext t ht)
    next f hf => exact invAfter_fault (hfault f hf)
    next r _ => exact invAfter_refused r

/-- Settles O54, by induction on the schedule. -/
theorem everyScheduleKeepsInvariant : Obligations.EveryScheduleKeepsInvariant := by
  unfold Obligations.EveryScheduleKeepsInvariant
  exact fun actions s hs => invAfter_runActions hs actions

/-! ## Reset (R20, R270) -/

/-- Settles O52: no flag, no cell, no display, no occupied stack entry. -/
theorem resetMeetsInvariant : Obligations.ResetMeetsInvariant :=
  ⟨⟨Nat.zero_le 1, wf_reset, fun d hd => by cases hd⟩, by decide, fun j hj => absurd hj (Nat.not_lt_zero j)⟩

/-- Settles O58: every field by its definition; an unlisted address past the 80 bytes of the font table reads as 0. -/
theorem resetSetsEveryPieceOfState : Obligations.ResetSetsEveryPieceOfState := by
  unfold Obligations.ResetSetsEveryPieceOfState
  intro s
  have hlen : fontTable.length = 80 := rfl
  refine ⟨getV_reset, rfl, rfl, rfl, rfl, fun j => ?_, rfl, rfl, fun a => rfl, hlen, fun a ha => ?_, rfl⟩
  · simp [hostReset, State.reset]
  · exact List.getD_eq_default _ _ (hlen ▸ ha)

/-! ## The timers (R245) -/

theorem countDown_toNat (b : Byte) : (countDown b).toNat = b.toNat - 1 := by
  unfold countDown
  split
  next h => simp [h]
  next h =>
    have hpos : b.toNat ≠ 0 := fun e => h (BitVec.eq_of_toNat_eq e)
    have := b.isLt
    rw [BitVec.toNat_sub]
    simp
    omega

/-- Settles O56, by induction on the number of ticks. -/
theorem ticksCountDownToZero : Obligations.TicksCountDownToZero := by
  unfold Obligations.TicksCountDownToZero
  intro s n
  induction n generalizing s with
  | zero => exact ⟨s, rfl, rfl, rfl, rfl⟩
  | succ n ih =>
    obtain ⟨t, hrun, hdt, hst, hframe⟩ := ih (tick s)
    rw [tick_dt, countDown_toNat] at hdt
    rw [tick_st, countDown_toNat] at hst
    exact ⟨t, hrun, by omega, by omega, hframe⟩

/-! ## Boot and the end of a run (R273, R275) -/

/-- The first two bytes of a block stand at its start. -/
theorem wordAtPc_of_writeBytes {s : State} {m : Memory} {a : Nat} {hi lo : Byte} {rest : List Byte}
    (hmem : s.mem = writeBytes m a (hi :: lo :: rest)) (hpc : s.pc.toNat = a) : wordAtPc s = wordOf hi lo := by
  have hhi : memByte s a = hi := by
    rw [memByte, hmem]
    exact readByte_writeBytes_add m a (bytes := hi :: lo :: rest) (j := 0) (by simp)
  have hlo : memByte s (a + 1) = lo := by
    rw [memByte, hmem]
    exact readByte_writeBytes_add m a (bytes := hi :: lo :: rest) (j := 1) (by simp)
  rw [wordAtPc, hpc, hhi, hlo]

/-- Settles O59: the program fits from 0x200 up, and `PC` is 0x200 after reset. -/
theorem bootRunsTheFirstProgramWord : Obligations.BootRunsTheFirstProgramWord := by
  unfold Obligations.BootRunsTheFirstProgramWord
  intro s hi lo rest hlen
  refine ⟨_, storeBytes_ok (hostReset s) (.inr (by simp [Config.loadAddr]; omega)), ?_⟩
  rw [step_of_fetch, wordAtPc_of_writeBytes (m := []) rfl rfl]
  exact (by decide : 0x200 < 4095)

/-- A run whose first step completes goes on from there. -/
theorem run_succ {M : Host.Core} {s t : M.State} (h : M.step s = .next t) (n : Nat) : M.run (n + 1) s = M.run n t := by
  rw [Host.Core.run, h]

/-- A step of a finished program is the identity: the jump goes to its own address. -/
theorem step_of_finished {s : State} (h : Finished s) : step s = .next s := by
  obtain ⟨hpc, nnn, hword, hself⟩ := h
  have hpc' : addrOperand nnn = s.pc := BitVec.eq_of_toNat_eq ((addrOperand_toNat nnn).trans hself)
  rw [step_of_fetch s hpc, hword]
  change Host.Outcome.next (setPc s (addrOperand nnn)) = _
  rw [hpc']
  rfl

/-- Settles O55, by induction on the number of steps. -/
theorem finishedProgramStaysPut : Obligations.FinishedProgramStaysPut := by
  unfold Obligations.FinishedProgramStaysPut
  intro s n h
  induction n with
  | zero => rfl
  | succ n ih => exact (run_succ (M := Sys2Proof.core) (step_of_finished h) n).trans ih

end Sys2Proof.Machine
end

section
/-! Proofs of the control claims of 41_control.md and the skips of 42_skips.md. -/

namespace Sys2Proof.Machine

/-! ## Updates of `PC` alone -/

theorem pcAdvanced_advance {s t : State} (h : t.pc = s.pc) : PcAdvanced s (advance t) := by
  rw [PcAdvanced, advance_pc_toNat, h]

theorem pcSkippedIf_skipIf {s t : State} (h : t.pc = s.pc) (c : Bool) : PcSkippedIf c s (skipIf t c) := by
  rw [PcSkippedIf, skipIf_pc_toNat, h]

theorem sameFlagAddressStackTimersMem_setPc (s : State) (w : Word16) : SameFlagAddressStackTimersMem s (setPc s w) :=
  ⟨rfl, rfl, ⟨rfl, rfl⟩, ⟨rfl, rfl⟩, fun _ => rfl⟩

/-- Settles O16: both are the advance alone. -/
theorem nopAndInvalidOnlyAdvance : Obligations.NopAndInvalidOnlyAdvance := by
  unfold Obligations.NopAndInvalidOnlyAdvance
  rintro i s (rfl | rfl) <;>
    exact ⟨advance s, rfl, pcAdvanced_advance rfl, fun _ => rfl, sameFlagAddressStackTimersMem_setPc s _, rfl⟩

/-- Settles O23: each skip is `skipIf` on its condition, which on bytes is that on their values. -/
theorem skipsMovePcAndNothingElse : Obligations.SkipsMovePcAndNothingElse := by
  unfold Obligations.SkipsMovePcAndNothingElse
  intro x y kk s i c h
  have heq (a b : Byte) : (a == b) = decide (a.toNat = b.toNat) := by
    rw [Bool.eq_iff_iff, beq_iff_eq, decide_eq_true_iff, BitVec.toNat_inj]
  have hne (a b : Byte) : (a != b) = decide (a.toNat ≠ b.toNat) := by rw [bne, heq, decide_not]
  have hskip : exec i s = .next (skipIf s c) := by
    simp only [List.mem_cons, Prod.mk.injEq, List.not_mem_nil, or_false] at h
    obtain ⟨rfl, rfl⟩ | ⟨rfl, rfl⟩ | ⟨rfl, rfl⟩ | ⟨rfl, rfl⟩ := h
    · rw [← heq]; rfl
    · rw [← hne]; rfl
    · rw [← heq]; rfl
    · rw [← hne]; rfl
  exact ⟨_, hskip, pcSkippedIf_skipIf rfl c, fun _ => rfl, sameFlagAddressStackTimersMem_setPc s _, rfl⟩

/-! ## Jumps, calls and returns (R133 to R135) -/

/-- Settles O19: the jump writes `PC` alone. -/
theorem jumpGoesToItsAddress : Obligations.JumpGoesToItsAddress := by
  unfold Obligations.JumpGoesToItsAddress
  intro nnn s
  refine ⟨setPc s (addrOperand nnn), rfl, addrOperand_toNat nnn, fun _ => rfl,
    sameFlagAddressStackTimersMem_setPc s _, rfl, fun hself => ?_⟩
  have hpc : addrOperand nnn = s.pc := BitVec.eq_of_toNat_eq ((addrOperand_toNat nnn).trans hself)
  rw [hpc]
  rfl

/-- Settles O33: the sum of 12 and 8 bits does not reach 65536. -/
theorem indexedJumpAddsV0 : Obligations.IndexedJumpAddsV0 := by
  unfold Obligations.IndexedJumpAddsV0
  exact fun nnn s => ⟨setPc s (indexedTarget s nnn), rfl, indexedTarget_toNat s nnn, fun _ => rfl,
    sameFlagAddressStackTimersMem_setPc s _, rfl⟩

/-- Settles O18, for a stack that holds an entry and for the empty one. -/
theorem retResumesAtThePoppedAddress : Obligations.RetResumesAtThePoppedAddress := by
  unfold Obligations.RetResumesAtThePoppedAddress
  refine fun s => ⟨fun hpos => ?_, exec_ret_fault s⟩
  obtain ⟨n, hn⟩ := Nat.exists_eq_succ_of_ne_zero (Nat.ne_of_gt hpos)
  have hlt : n < 16 := by have := s.sp.isLt; omega
  refine ⟨_, exec_ret_next s hn hlt, by simp [hn], fun j hj => ?_, rfl, fun _ => rfl, rfl, rfl, ⟨rfl, rfl⟩,
    fun _ => rfl, rfl⟩
  obtain rfl : j.val = n := by omega
  rfl

/-- Settles O20, for a stack with room and for the full one. -/
theorem callPushesTheFollowingAddress : Obligations.CallPushesTheFollowingAddress := by
  unfold Obligations.CallPushesTheFollowingAddress
  intro nnn s
  refine ⟨fun hroom => ⟨_, exec_call_next s nnn hroom, addrOperand_toNat nnn, rfl, fun j hj => ?_, fun j hj => ?_,
    fun _ => rfl, rfl, rfl, ⟨rfl, rfl⟩, fun _ => rfl, rfl⟩, fun hfull => exec_call_fault s nnn (by omega)⟩
  · simpa [hj] using nextPc_toNat s
  · simp [Ne.symm hj]

/-- Settles O21: the body leaves the return address on top, and `RET` pops it. -/
theorem retUndoesCall : Obligations.RetUndoesCall := by
  unfold Obligations.RetUndoesCall
  rintro nnn s t u h ⟨hsp, hstack⟩
  have hroom : s.sp.val < 16 := accessOk_of_next h
  rw [exec_call_next s nnn hroom] at h
  cases h
  have hu : u.sp.val = s.sp.val + 1 := by rw [hsp]; rfl
  refine ⟨_, exec_ret_next u hu hroom, ?_, rfl⟩
  simpa [hstack] using nextPc_toNat s

/-- Settles O22, by induction on the calls: each takes one of the free entries. -/
theorem callsNestSixteenDeep : Obligations.CallsNestSixteenDeep := by
  unfold Obligations.CallsNestSixteenDeep
  intro targets
  induction targets with
  | nil =>
    intro s
    have := s.sp.isLt
    exact ⟨iff_of_true (by simp; omega) ⟨s, rfl⟩, fun t h => by cases h; rfl⟩
  | cons nnn rest ih =>
    intro s
    by_cases hroom : s.sp.val < 16
    · obtain ⟨hiff, hcount⟩ := ih (setPc { s with
        stack := s.stack.set s.sp.val (nextPc s) hroom, sp := ⟨s.sp.val + 1, Nat.succ_lt_succ hroom⟩ } (addrOperand nnn))
      simp only [callEach, exec_call_next s nnn hroom, List.length_cons]
      rw [← hiff]
      refine ⟨?_, fun t ht => (hcount t ht).trans ?_⟩ <;> simp only [setPc_sp] <;> omega
    · simp only [callEach, exec_call_fault s nnn hroom, List.length_cons]
      exact ⟨iff_of_false (by omega) nofun, nofun⟩

/-! ## `CLS` (R132, R241) -/

/-- Settles O17: the clear request stands in the log only where `CLS` put it; a sprite request is another one. -/
theorem clsAloneIssuesOneClearRequest : Obligations.ClsAloneIssuesOneClearRequest := by
  unfold Obligations.ClsAloneIssuesOneClearRequest
  refine ⟨fun s => ⟨_, rfl, pcAdvanced_advance rfl, fun _ => rfl, ⟨rfl, rfl, ⟨rfl, rfl⟩, ⟨rfl, rfl⟩, fun _ => rfl⟩, rfl,
    fun d hd => ⟨d.cleared, ?_, rfl, rfl, by simp [Display.cleared, Display.blank], fun p hp => ?_⟩, fun hd => ?_,
    rfl, rfl, rfl⟩, fun i s t hne h => ?_⟩
  · simp [clearDisplay, hd]
  · exact List.eq_of_mem_replicate hp
  · simp [clearDisplay, hd]
  · cases exec_next h
    case regsAndPc hlog _ _ => exact congrArg (List.count .clear) hlog
    case draw x y n a b rows => simp [drawSprite_log]
    case clear => exact absurd rfl hne
    all_goals rfl

end Sys2Proof.Machine
end

section
/-! Proof that no step depends on `FLAG` or on `ST` (10_state.md R29, R36): an operation run from a state with the register hidden
ends alike but for that register. -/

namespace Sys2Proof.Machine

section
variable {g : State → State} (hg : g = hideFlag ∨ g = hideST) (s : State)
include hg

/-- What stays where `FLAG` or `ST` is hidden. -/
theorem hide_keeps : (g s).i = s.i ∧ (g s).sp = s.sp ∧ (g s).pc = s.pc ∧ (∀ r, getV (g s) r = getV s r) ∧
    ∀ a, memByte (g s) a = memByte s a := by
  obtain rfl | rfl := hg <;> exact ⟨rfl, rfl, rfl, fun _ => rfl, fun _ => rfl⟩

theorem rand8_hide : rand8 (g s) = ((rand8 s).1, g (rand8 s).2) := by
  obtain rfl | rfl := hg <;> cases h : s.ports.randomBytes <;> simp [rand8, hideFlag, hideST, countAnswer, h]

theorem keyDown_hide (k : Byte) : keyDown (g s) k = ((keyDown s k).1, g (keyDown s k).2) := by
  obtain rfl | rfl := hg <;> by_cases h : 15 < k.toNat <;> simp [keyDown, askKey, hideFlag, hideST, countAnswer, h]

theorem lastKey_hide : (lastKey (g s)).1 = (lastKey s).1 := by
  obtain rfl | rfl := hg <;> cases h : s.ports.keypad <;> simp [lastKey, hideFlag, hideST, h]

theorem drawSprite_hide (x y : Byte) (rows : List Byte) :
    drawSprite (g s) x y rows = ((drawSprite s x y rows).1, g (drawSprite s x y rows).2) := by
  obtain rfl | rfl := hg <;> cases h : s.ports.display <;> cases rows <;>
    simp [drawSprite, freeCollisionFor, hideFlag, hideST, h]

/-- A bulk load from the hidden state reads the same bytes, so it leaves the same registers. -/
theorem eq_hide_of_reads {s t u : State} (ht : t = { s with v := t.v }) (hu : u = { g s with v := u.v })
    (h : ∀ r, getV u r = getV t r) : u = g t := by
  have hv : u.v = t.v := v_ext h
  rw [hu, hv, ht]
  obtain rfl | rfl := hg <;> rfl

/-- The operation ends alike from the state with the register hidden, but for that register. -/
theorem exec_hide (i : Instr) : mapOutcome g (exec i (g s)) = mapOutcome g (exec i s) := by
  obtain ⟨hi, hsp, hpc, hv, hmem⟩ := hide_keeps hg s
  cases i
  case call nnn =>
    by_cases h : s.sp.val < 16
    · rw [exec_call_next s nnn h, exec_call_next (g s) nnn (by rwa [hsp])]
      obtain rfl | rfl := hg <;> rfl
    · rw [exec_call_fault s nnn h, exec_call_fault (g s) nnn (by rwa [hsp])]
      obtain rfl | rfl := hg <;> rfl
  case ret =>
    by_cases h : s.sp.val = 0
    · rw [exec_ret_fault s h, exec_ret_fault (g s) (by rwa [hsp])]
      obtain rfl | rfl := hg <;> rfl
    · obtain ⟨n, hn⟩ := Nat.exists_eq_succ_of_ne_zero h
      have hlt : n < 16 := by have := s.sp.isLt; omega
      rw [exec_ret_next s hn hlt, exec_ret_next (g s) (by rwa [hsp]) hlt]
      obtain rfl | rfl := hg <;> rfl
  case random x kk =>
    simp only [exec, execRandom, rand8_hide hg]
    obtain rfl | rfl := hg <;> rfl
  case draw x y n =>
    have hrows : bytesFrom (g s) s.i.toNat n.toNat = bytesFrom s s.i.toNat n.toNat := by simp only [bytesFrom, hmem]
    by_cases h : n.toNat = 0 ∨ s.i.toNat + n.toNat ≤ 4096
    · rw [exec_draw_next s x y n h, exec_draw_next (g s) x y n (by rwa [hi]), hv, hv, hi, hrows, drawSprite_hide hg]
      obtain rfl | rfl := hg <;> rfl
    · obtain ⟨h0, hpast⟩ := not_or.1 h
      rw [exec_draw_fault s x y n (by omega) (by omega), exec_draw_fault (g s) x y n (by omega) (by rw [hi]; omega)]
      obtain rfl | rfl := hg <;> rfl
  case skipKeyDown x =>
    simp only [exec, execSkipKeyDown, hv, keyDown_hide hg]
    obtain rfl | rfl := hg <;> rfl
  case skipKeyUp x =>
    simp only [exec, execSkipKeyUp, hv, keyDown_hide hg]
    obtain rfl | rfl := hg <;> rfl
  case waitKey x =>
    cases h : (lastKey s).1 with
    | none =>
      rw [exec_waitKey_none s x h, exec_waitKey_none (g s) x (by rwa [lastKey_hide hg])]
      obtain rfl | rfl := hg <;> rfl
    | some k =>
      rw [exec_waitKey_some s x k h, exec_waitKey_some (g s) x k (by rwa [lastKey_hide hg])]
      obtain rfl | rfl := hg <;> rfl
  case storeBcd x =>
    by_cases h : s.i.toNat + 3 ≤ 4096
    · rw [exec_storeBcd_next s x h, exec_storeBcd_next (g s) x (by rwa [hi])]
      obtain rfl | rfl := hg <;> rfl
    · rw [exec_storeBcd_fault s x (by omega), exec_storeBcd_fault (g s) x (by rw [hi]; omega)]
      obtain rfl | rfl := hg <;> rfl
  case storeRegs x =>
    by_cases h : s.i.toNat + (x.toNat + 1) ≤ 4096
    · rw [exec_storeRegs_next s x h, exec_storeRegs_next (g s) x (by rwa [hi])]
      obtain rfl | rfl := hg <;> rfl
    · rw [exec_storeRegs_fault s x (by omega), exec_storeRegs_fault (g s) x (by rw [hi]; omega)]
      obtain rfl | rfl := hg <;> rfl
  case loadRegs x =>
    by_cases h : s.i.toNat + (x.toNat + 1) ≤ 4096
    · obtain ⟨t, ht, htv, htr⟩ := exec_loadRegs_next s x h
      obtain ⟨u, hu, huv, hur⟩ := exec_loadRegs_next (g s) x (by rwa [hi])
      rw [ht, hu, eq_hide_of_reads hg htv huv fun r => by rw [htr, hur, hi, hmem, hv]]
      obtain rfl | rfl := hg <;> rfl
    · obtain ⟨t, ht, htv, htr⟩ := exec_loadRegs_fault s x (by omega)
      obtain ⟨u, hu, huv, hur⟩ := exec_loadRegs_fault (g s) x (by rw [hi]; omega)
      rw [ht, hu, eq_hide_of_reads hg htv huv fun r => by rw [htr, hur, hi, hmem, hv]]
      obtain rfl | rfl := hg <;> rfl
  all_goals obtain rfl | rfl := hg <;> rfl

/-- The fetch reads neither register, so the step ends alike too. -/
theorem step_hide : mapOutcome g (step (g s)) = mapOutcome g (step s) := by
  obtain ⟨-, -, hpc, -, hmem⟩ := hide_keeps hg s
  by_cases h : s.pc.toNat < 4095
  · have hword : wordAtPc (g s) = wordAtPc s := by rw [wordAtPc, hpc, hmem, hmem, wordAtPc]
    rw [step_of_fetch s h, step_of_fetch (g s) (by rwa [hpc]), hword]
    exact exec_hide hg s _
  · rw [step_of_no_fetch s (by omega), step_of_no_fetch (g s) (by rw [hpc]; omega)]
    obtain rfl | rfl := hg <;> rfl

end

/-- Settles O49: two states that differ in the register alone are one state once it is hidden. -/
theorem noStepReadsFlagOrSoundTimer : Obligations.NoStepReadsFlagOrSoundTimer := by
  unfold Obligations.NoStepReadsFlagOrSoundTimer
  exact fun s b =>
    ⟨(step_hide (.inl rfl) { s with flag := b }).symm.trans (step_hide (.inl rfl) s),
      (step_hide (.inr rfl) { s with st := b }).symm.trans (step_hide (.inr rfl) s)⟩

end Sys2Proof.Machine
end

section
/-! Proofs of the register, arithmetic, address and timer claims (43_alu.md, 44_address.md, 47_timer_memory.md sections 1 and 3). -/

namespace Sys2Proof.Machine

/-! ## A result in a register (R166) -/

/-- What `writeResult` leaves: the result in `V[x]`, and all else but `PC` as it was. -/
theorem writeResult_frame (x : Nibble) (b : Byte) (s : State) : ∃ t, writeResult x b s = .next t ∧ getV t x = b ∧
    SameRegsBut x s t ∧ t.flag = s.flag ∧ PcAdvanced s t ∧ SameAddressStackTimersMemPorts s t :=
  ⟨_, rfl, getV_setV_same s x b, fun _ hr => getV_setV_other s hr b, rfl, pcAdvanced_advance rfl,
    rfl, ⟨rfl, rfl⟩, ⟨rfl, rfl⟩, fun _ => rfl, rfl⟩

/-- What `writeResultFlag` leaves: the result in `V[x]`, the flag, and all else but `PC` as it was. -/
theorem writeResultFlag_frame (x : Nibble) (b flag : Byte) (s : State) : ∃ t, writeResultFlag x b flag s = .next t ∧
    getV t x = b ∧ t.flag = flag ∧ SameRegsBut x s t ∧ PcAdvanced s t ∧ SameAddressStackTimersMemPorts s t :=
  ⟨_, rfl, getV_setV_same s x b, rfl, fun _ hr => getV_setV_other s hr b, pcAdvanced_advance rfl,
    rfl, ⟨rfl, rfl⟩, ⟨rfl, rfl⟩, fun _ => rfl, rfl⟩

/-- Settles O24: the result is the constant. -/
theorem loadImmediateWritesTheConstant : Obligations.LoadImmediateWritesTheConstant := by
  unfold Obligations.LoadImmediateWritesTheConstant
  exact writeResult_frame

/-- Settles O25: the sum of bytes is modulo 256. -/
theorem addImmediateWrapsAndKeepsFlag : Obligations.AddImmediateWrapsAndKeepsFlag := by
  unfold Obligations.AddImmediateWrapsAndKeepsFlag
  intro x kk s
  obtain ⟨t, ht, hres, hframe⟩ := writeResult_frame x (getV s x + kk) s
  exact ⟨t, ht, by rw [hres, BitVec.toNat_add], hframe⟩

/-- Settles O26: the four operations on bytes are those on their bits. -/
theorem copyAndLogicWriteEachBit : Obligations.CopyAndLogicWriteEachBit := by
  unfold Obligations.CopyAndLogicWriteEachBit
  rintro x y s i op (⟨rfl, rfl⟩ | ⟨rfl, rfl⟩ | ⟨rfl, rfl⟩ | ⟨rfl, rfl⟩)
  · obtain ⟨t, ht, hres, hframe⟩ := writeResult_frame x (getV s y) s
    exact ⟨t, ht, fun j _ => by rw [hres], hframe⟩
  · obtain ⟨t, ht, hres, hframe⟩ := writeResult_frame x (getV s x ||| getV s y) s
    exact ⟨t, ht, fun j _ => by rw [hres, BitVec.getLsbD_or], hframe⟩
  · obtain ⟨t, ht, hres, hframe⟩ := writeResult_frame x (getV s x &&& getV s y) s
    exact ⟨t, ht, fun j _ => by rw [hres, BitVec.getLsbD_and], hframe⟩
  · obtain ⟨t, ht, hres, hframe⟩ := writeResult_frame x (getV s x ^^^ getV s y) s
    exact ⟨t, ht, fun j _ => by rw [hres, BitVec.getLsbD_xor], hframe⟩

/-- Settles O27: the sum of bytes is modulo 256, and its carry goes to `FLAG`. -/
theorem addRegistersWritesSumAndCarry : Obligations.AddRegistersWritesSumAndCarry := by
  unfold Obligations.AddRegistersWritesSumAndCarry
  intro x y s
  obtain ⟨t, ht, hres, hflag, hframe⟩ :=
    writeResultFlag_frame x (getV s x + getV s y) (carryFlag (getV s x) (getV s y)) s
  exact ⟨t, ht, by rw [hres, BitVec.toNat_add], by simp [hflag, carryFlag], hframe⟩

/-- The difference of two bytes modulo 256 (R157, R158). -/
theorem byte_sub_toNat (a b : Byte) : (a - b).toNat = (a.toNat + 256 - b.toNat) % 256 := by
  have := a.isLt; have := b.isLt
  rw [BitVec.toNat_sub]
  omega

theorem noBorrowFlag_toNat (a b : Byte) : (noBorrowFlag a b).toNat = if b.toNat ≤ a.toNat then 1 else 0 := by
  simp [noBorrowFlag]

/-- Settles O28: the difference of `V[x]` and `V[y]`. -/
theorem subtractWritesDifferenceAndNoBorrow : Obligations.SubtractWritesDifferenceAndNoBorrow := by
  unfold Obligations.SubtractWritesDifferenceAndNoBorrow
  intro x y s
  obtain ⟨t, ht, hres, hflag, hframe⟩ :=
    writeResultFlag_frame x (getV s x - getV s y) (noBorrowFlag (getV s x) (getV s y)) s
  exact ⟨t, ht, by rw [hres, byte_sub_toNat], by rw [hflag, noBorrowFlag_toNat], hframe⟩

/-- Settles O29: the difference of `V[y]` and `V[x]`. -/
theorem subtractReverseWritesDifferenceAndNoBorrow : Obligations.SubtractReverseWritesDifferenceAndNoBorrow := by
  unfold Obligations.SubtractReverseWritesDifferenceAndNoBorrow
  intro x y s
  obtain ⟨t, ht, hres, hflag, hframe⟩ :=
    writeResultFlag_frame x (getV s y - getV s x) (noBorrowFlag (getV s y) (getV s x)) s
  exact ⟨t, ht, by rw [hres, byte_sub_toNat], by rw [hflag, noBorrowFlag_toNat], hframe⟩

theorem shiftRightFlag_toNat (a : Byte) : (shiftRightFlag a).toNat = a.toNat % 2 := by
  revert a; decide

theorem shiftLeftFlag_toNat (a : Byte) : (shiftLeftFlag a).toNat = a.toNat / 128 := by
  revert a; decide

/-- Settles O30: a shift right by one is a division by two. -/
theorem shiftRightWritesHalfAndBitOut : Obligations.ShiftRightWritesHalfAndBitOut := by
  unfold Obligations.ShiftRightWritesHalfAndBitOut
  intro x y s
  obtain ⟨t, ht, hres, hflag, hframe⟩ := writeResultFlag_frame x (getV s x >>> 1) (shiftRightFlag (getV s x)) s
  exact ⟨t, ht, by rw [hres, BitVec.toNat_ushiftRight, Nat.shiftRight_eq_div_pow, pow_one],
    by rw [hflag, shiftRightFlag_toNat], hframe⟩

/-- Settles O31: a shift left by one is a product by two, modulo 256. -/
theorem shiftLeftWritesDoubleAndBitOut : Obligations.ShiftLeftWritesDoubleAndBitOut := by
  unfold Obligations.ShiftLeftWritesDoubleAndBitOut
  intro x y s
  obtain ⟨t, ht, hres, hflag, hframe⟩ := writeResultFlag_frame x (getV s x <<< 1) (shiftLeftFlag (getV s x)) s
  exact ⟨t, ht, by rw [hres, BitVec.toNat_shiftLeft, Nat.shiftLeft_eq, pow_one],
    by rw [hflag, shiftLeftFlag_toNat], hframe⟩

/-! ## The address register (R170, R204, R205) -/

/-- What a write to `I` leaves: all else but `PC` as it was. -/
theorem setI_frame (s : State) (w : Word16) : PcAdvanced s (advance (setI s w)) ∧ SameRegs s (advance (setI s w)) ∧
    (advance (setI s w)).flag = s.flag ∧ SameStack s (advance (setI s w)) ∧ SameTimers s (advance (setI s w)) ∧
    SameMem s (advance (setI s w)) ∧ SamePorts s (advance (setI s w)) :=
  ⟨pcAdvanced_advance rfl, fun _ => rfl, rfl, ⟨rfl, rfl⟩, ⟨rfl, rfl⟩, fun _ => rfl, rfl⟩

/-- Settles O32: family A is one row of the opcode table. -/
theorem setAddressWritesI : Obligations.SetAddressWritesI := by
  unfold Obligations.SetAddressWritesI
  refine ⟨fun w hw => ?_, fun nnn s => ⟨_, rfl, addrOperand_toNat nnn, setI_frame s _⟩⟩
  exact decodeWord_of_takes w ⟨0xF000#16, 0xA000#16, fun w => .setAddress (nnnOf w)⟩ (by simp [opcodeRows]) hw

/-- Settles O34: the byte widened is added to `I`. -/
theorem addAddressWrapsAtSixteenBits : Obligations.AddAddressWrapsAtSixteenBits := by
  unfold Obligations.AddAddressWrapsAtSixteenBits
  refine fun x s => ⟨_, rfl, ?_, setI_frame s _⟩
  simp [regOperand16, BitVec.toNat_add]

/-- Settles O35: five times a byte does not reach 65536. -/
theorem fontAddressIsFiveTimesTheDigit : Obligations.FontAddressIsFiveTimesTheDigit := by
  unfold Obligations.FontAddressIsFiveTimesTheDigit
  refine fun x s => ⟨_, rfl, ?_, setI_frame s _⟩
  have := (getV s x).isLt
  simp [glyphOperand, fontGlyphAddress, Config.glyphHeight]
  omega

/-! ## The timers (R200, R202, R203) -/

/-- Settles O42: the result is `DT`. -/
theorem readDelayCopiesDT : Obligations.ReadDelayCopiesDT := by
  unfold Obligations.ReadDelayCopiesDT
  exact fun x s => ⟨_, rfl, getV_setV_same s x s.dt, fun _ hr => getV_setV_other s hr s.dt, pcAdvanced_advance rfl,
    ⟨rfl, rfl, ⟨rfl, rfl⟩, ⟨rfl, rfl⟩, fun _ => rfl⟩, rfl⟩

/-- Settles O43: each load writes its timer and the advance. -/
theorem timerLoadsWriteTheirTimer : Obligations.TimerLoadsWriteTheirTimer := by
  unfold Obligations.TimerLoadsWriteTheirTimer
  refine fun x s => ⟨_, _, rfl, rfl, rfl, rfl, rfl, rfl, ?_, pcAdvanced_advance rfl, fun _ => rfl, rfl, rfl, ⟨rfl, rfl⟩,
    fun _ => rfl, rfl, pcAdvanced_advance rfl, fun _ => rfl, rfl, rfl, ⟨rfl, rfl⟩, fun _ => rfl, rfl⟩
  exact decide_eq_decide.2 Nat.pos_iff_ne_zero

/-! ## The random port (R172) -/

/-- Settles O36: the attached byte, or the free value where none is left. -/
theorem randomIsTheDrawnByteMasked : Obligations.RandomIsTheDrawnByteMasked := by
  unfold Obligations.RandomIsTheDrawnByteMasked
  intro x kk s
  have hmask {v r : Byte} (hv : v = r &&& kk) : v &&& ~~~kk = 0#8 := by
    rw [hv, BitVec.and_assoc, BitVec.and_not_self]
    exact BitVec.and_zero
  have hexec : exec (.random x kk) s = .next (advance (setV (rand8 s).2 x ((rand8 s).1 &&& kk))) := rfl
  rw [hexec]
  cases h : s.ports.randomBytes with
  | nil =>
    rw [rand8_free s h]
    exact ⟨_, _, rfl, getV_setV_same _ x _, hmask (getV_setV_same _ x _), nofun, fun _ => ⟨rfl, h⟩, rfl, rfl, rfl, rfl,
      fun _ hr => getV_setV_other _ hr _, pcAdvanced_advance rfl, rfl, rfl, ⟨rfl, rfl⟩, ⟨rfl, rfl⟩, fun _ => rfl⟩
  | cons b bs =>
    rw [rand8_attached s h]
    refine ⟨_, _, rfl, getV_setV_same _ x _, hmask (getV_setV_same _ x _), ?_, nofun, rfl, rfl, rfl, rfl,
      fun _ hr => getV_setV_other _ hr _, pcAdvanced_advance rfl, rfl, rfl, ⟨rfl, rfl⟩, ⟨rfl, rfl⟩, fun _ => rfl⟩
    rintro _ _ ⟨⟩
    exact ⟨rfl, rfl⟩

end Sys2Proof.Machine
end

section
/-! Proofs of the memory transfers (47_timer_memory.md section 4): the three operations, the fetch after a store (R70) and the
load after a store. -/

namespace Sys2Proof.Machine

/-! ## Bytes stored in a row -/

/-- The state after `bytes` are stored from `a` up. -/
def stored (s : State) (a : Nat) (bytes : List Byte) : State := { s with mem := writeBytes s.mem a bytes }

theorem memByte_stored (s : State) (a : Nat) {bytes : List Byte} {j : Nat} (h : j < bytes.length) :
    memByte (stored s a bytes) (a + j) = bytes[j] := readByte_writeBytes_add s.mem a h

theorem memByte_stored_outside (s : State) {a c : Nat} {bytes : List Byte} (h : c < a ∨ a + bytes.length ≤ c) :
    memByte (stored s a bytes) c = memByte s c := readByte_writeBytes_outside s.mem h

/-- The part of a block that lies in memory (R226). -/
theorem memByte_stored_take (s : State) {a : Nat} {bytes : List Byte} {j : Nat} (h : j < bytes.length) (hin : a + j < 4096) :
    memByte (stored s a (bytes.take (4096 - a))) (a + j) = bytes[j] := by
  have hj : j < (bytes.take (4096 - a)).length := by rw [List.length_take]; omega
  exact (memByte_stored s a hj).trans List.getElem_take

theorem memByte_stored_take_outside (s : State) {a c : Nat} (bytes : List Byte) (h : c < a ∨ 4096 ≤ c) :
    memByte (stored s a (bytes.take (4096 - a))) c = memByte s c :=
  memByte_stored_outside s (by rw [List.length_take]; omega)

/-! ## `LD [I], Vx` (R208) -/

theorem getElem_regsUpTo (s : State) {x r : Nibble} (h : r.toNat < (regsUpTo s x).length) :
    (regsUpTo s x)[r.toNat] = getV s r := by
  rw [← List.getD_eq_getElem _ 0#8 h, regsUpTo_getD s x r (by rw [regsUpTo_length] at h; omega)]

theorem lt_regsUpTo_length (s : State) {x r : Nibble} (h : r.toNat ≤ x.toNat) : r.toNat < (regsUpTo s x).length := by
  rw [regsUpTo_length]; omega

/-- The registers stand in memory from `I` up. -/
theorem memByte_stored_regs (s : State) {x r : Nibble} (h : r.toNat ≤ x.toNat) :
    memByte (stored s s.i.toNat (regsUpTo s x)) (s.i.toNat + r.toNat) = getV s r := by
  rw [memByte_stored s _ (lt_regsUpTo_length s h), getElem_regsUpTo]

theorem memByte_stored_regs_outside (s : State) {x : Nibble} {a : Nat} (h : a < s.i.toNat ∨ s.i.toNat + x.toNat < a) :
    memByte (stored s s.i.toNat (regsUpTo s x)) a = memByte s a :=
  memByte_stored_outside s (by rw [regsUpTo_length]; omega)

/-- A bulk store that completes fitted. -/
theorem exec_storeRegs_inv {x : Nibble} {s t : State} (h : exec (.storeRegs x) s = .next t) :
    s.i.toNat + (x.toNat + 1) ≤ 4096 ∧ t = advance (stored s s.i.toNat (regsUpTo s x)) := by
  have hfit : s.i.toNat + (x.toNat + 1) ≤ 4096 := accessOk_of_next h
  rw [exec_storeRegs_next s x hfit] at h
  cases h
  exact ⟨hfit, rfl⟩

/-- Settles O45: the block that fits, and the part of it that lies in memory. -/
theorem storeRegistersWritesTheBlock : Obligations.StoreRegistersWritesTheBlock := by
  unfold Obligations.StoreRegistersWritesTheBlock
  intro x s
  constructor
  · intro hfit
    exact ⟨_, exec_storeRegs_next s x hfit, fun r hr => memByte_stored_regs s hr,
      fun a ha => memByte_stored_regs_outside s ha, pcAdvanced_advance rfl, fun _ => rfl, rfl, rfl,
      ⟨rfl, rfl⟩, ⟨rfl, rfl⟩, rfl⟩
  · intro hpast
    refine ⟨_, exec_storeRegs_fault s x (by omega), rfl, fun r hr hin => ?_, fun a ha => ?_⟩
    · exact (memByte_stored_take s (lt_regsUpTo_length s hr) hin).trans (getElem_regsUpTo s _)
    · exact memByte_stored_take_outside s _ ha

/-! ## `LD B, Vx` (R207) -/

/-- The three digits as numbers. -/
theorem bcdDigits_toNat (b : Byte) : (bcdDigits b)[0].toNat = b.toNat / 100 ∧
    (bcdDigits b)[1].toNat = b.toNat / 10 % 10 ∧ (bcdDigits b)[2].toNat = b.toNat % 10 := by
  have := b.isLt
  simp [bcdDigits]
  omega

/-- The digits stand in memory from `I` up, hundreds first. -/
theorem memByte_stored_bcd (s : State) (b : Byte) :
    (memByte (stored s s.i.toNat (bcdDigits b)) s.i.toNat).toNat = b.toNat / 100 ∧
      (memByte (stored s s.i.toNat (bcdDigits b)) (s.i.toNat + 1)).toNat = b.toNat / 10 % 10 ∧
      (memByte (stored s s.i.toNat (bcdDigits b)) (s.i.toNat + 2)).toNat = b.toNat % 10 := by
  obtain ⟨h0, h1, h2⟩ := bcdDigits_toNat b
  have digit {j : Nat} (hj : j < (bcdDigits b).length) := congrArg BitVec.toNat (memByte_stored s s.i.toNat hj)
  exact ⟨(digit (j := 0) _).trans h0, (digit (j := 1) _).trans h1, (digit (j := 2) _).trans h2⟩

/-- Settles O44: the digits of a byte add up to it; of a block that runs past memory those in range are stored. -/
theorem bcdStoresThreeDigits : Obligations.BcdStoresThreeDigits := by
  unfold Obligations.BcdStoresThreeDigits
  intro x s
  constructor
  · intro hfit
    refine ⟨advance (stored s s.i.toNat (bcdDigits (getV s x))), exec_storeBcd_next s x hfit, ?_⟩
    obtain ⟨h0, h1, h2⟩ := memByte_stored_bcd s (getV s x)
    have hlt := (getV s x).isLt
    rw [memByte_advance, memByte_advance, memByte_advance, h0, h1, h2]
    exact ⟨by omega, by omega, by omega, by omega, fun a ha => memByte_stored_outside s ha, pcAdvanced_advance rfl,
      fun _ => rfl, rfl, rfl, ⟨rfl, rfl⟩, ⟨rfl, rfl⟩, rfl⟩
  · intro hpast
    obtain ⟨h0, h1, -⟩ := bcdDigits_toNat (getV s x)
    refine ⟨_, exec_storeBcd_fault s x (by omega), rfl, fun hin => ?_, fun hin => ?_, fun a ha => ?_⟩
    · exact (congrArg BitVec.toNat (memByte_stored_take s (j := 0) (by simp) hin)).trans h0
    · exact (congrArg BitVec.toNat (memByte_stored_take s (j := 1) (by simp) hin)).trans h1
    · exact memByte_stored_take_outside s _ ha

/-! ## `LD Vx, [I]` (R209) -/

/-- Settles O46: the registers whose byte is read, and those that keep their value. -/
theorem loadRegistersReadsTheBlock : Obligations.LoadRegistersReadsTheBlock := by
  unfold Obligations.LoadRegistersReadsTheBlock
  intro x s
  constructor
  · intro hfit
    obtain ⟨t, ht, hleft, hread⟩ := exec_loadRegs_next s x hfit
    obtain ⟨v, rfl⟩ : ∃ v, t = { s with v := v } := ⟨_, hleft⟩
    exact ⟨_, ht, fun r hr => (hread r).trans (if_pos hr), fun r hr => (hread r).trans (if_neg (Nat.not_le.2 hr)),
      pcAdvanced_advance rfl, ⟨rfl, rfl, ⟨rfl, rfl⟩, ⟨rfl, rfl⟩, fun _ => rfl⟩, rfl⟩
  · intro hpast
    obtain ⟨u, hu, hleft, hread⟩ := exec_loadRegs_fault s x (by omega)
    exact ⟨u, hu, hleft, fun r hr hin => (hread r).trans (if_pos ⟨hr, hin⟩),
      fun r hr => (hread r).trans (if_neg (by omega))⟩

/-- Settles O47: the load reads each register from where the store put it. -/
theorem loadUndoesStore : Obligations.LoadUndoesStore := by
  unfold Obligations.LoadUndoesStore
  intro x s t u h hmem hi
  obtain ⟨hfit, rfl⟩ := exec_storeRegs_inv h
  have hi' : u.i = s.i := hi
  obtain ⟨r, hr, -, hread⟩ := exec_loadRegs_next u x (by rw [hi']; exact hfit)
  refine ⟨_, hr, fun q hq => ?_⟩
  calc getV (advance r) q = memByte u (u.i.toNat + q.toNat) := (hread q).trans (if_pos hq)
    _ = memByte (stored s s.i.toNat (regsUpTo s x)) (s.i.toNat + q.toNat) := by rw [hmem, hi', memByte_advance]
    _ = getV s q := memByte_stored_regs s hq

/-! ## The fetch after a store (R70) -/

/-- The step from the advanced state fetches and runs the word at `PC + 2`. -/
theorem nextWordIs_advance {s u : State} {byteAt : Nat → Byte → Prop} (hpc : u.pc = s.pc) (hfetch : s.pc.toNat + 3 < 4096)
    (hbyte : ∀ a, byteAt a (memByte u a)) : NextWordIs s (advance u) byteAt := by
  have hnext : (advance u).pc.toNat = s.pc.toNat + 2 := by rw [advance_pc_toNat, hpc]; omega
  have hlt : (advance u).pc.toNat < 4095 := by omega
  have hword : wordAtPc (advance u) = wordOf (memByte u (s.pc.toNat + 2)) (memByte u (s.pc.toNat + 3)) := by
    rw [wordAtPc, hnext, memByte_advance, memByte_advance]
  exact ⟨_, _, hword ▸ fetchWord_ok _ hlt, hword ▸ step_of_fetch _ hlt, hbyte _, hbyte _⟩

/-- Settles O15: each byte of the next word is read from the memory the store left. -/
theorem storeIsSeenByTheNextFetch : Obligations.StoreIsSeenByTheNextFetch := by
  unfold Obligations.StoreIsSeenByTheNextFetch
  intro x s t hpc
  constructor
  · intro h
    obtain ⟨-, rfl⟩ := exec_storeRegs_inv h
    refine nextWordIs_advance rfl hpc fun a => ⟨fun r hr ha => ?_, fun ha => memByte_stored_regs_outside s ha⟩
    rw [← ha, memByte_stored_regs s hr]
  · intro h
    have hfit : s.i.toNat + 3 ≤ 4096 := accessOk_of_next h
    rw [exec_storeBcd_next s x hfit] at h
    cases h
    obtain ⟨h0, h1, h2⟩ := memByte_stored_bcd s (getV s x)
    refine nextWordIs_advance (u := stored s s.i.toNat (bcdDigits (getV s x))) rfl hpc fun a => ?_
    refine ⟨?_, ?_, ?_, fun ha => memByte_stored_outside s (by rw [bcdDigits_length]; omega)⟩
    · rintro rfl; exact h0
    · rintro rfl; exact h1
    · rintro rfl; exact h2

end Sys2Proof.Machine
end

section
/-! Proofs of the input claims (46_input.md, R201). -/

namespace Sys2Proof.Machine

/-- The answer for a key: the attached keypad's bit, or the free value (R242). -/
theorem askKey_attached {s : State} {kp : Keypad} (h : s.ports.keypad = some kp) (k : Nibble) :
    askKey s k = kp.keys.getLsbD k.toNat := by simp [askKey, h]

theorem askKey_free {s : State} (h : s.ports.keypad = none) (k : Nibble) :
    askKey s k = Config.freeKeyDown s.ports.answered k := by simp [askKey, h]

/-- Settles O40: an identifier above 15 is not asked about, and one up to 15 is the key of that number. -/
theorem keySkipsFollowTheKeypad : Obligations.KeySkipsFollowTheKeypad := by
  unfold Obligations.KeySkipsFollowTheKeypad
  intro x s
  have hdown : exec (.skipKeyDown x) s = .next (skipIf (keyDown s (getV s x)).2 (keyDown s (getV s x)).1) := rfl
  have hup : exec (.skipKeyUp x) s = .next (skipIf (keyDown s (getV s x)).2 (!(keyDown s (getV s x)).1)) := rfl
  rw [hdown, hup]
  by_cases habove : 15 < (getV s x).toNat
  · rw [keyDown_above s habove]
    have hnot {p : Prop} (h : (getV s x).toNat ≤ 15) : p := absurd h (Nat.not_le.2 habove)
    exact ⟨_, _, _, rfl, rfl, pcSkippedIf_skipIf rfl _, pcSkippedIf_skipIf rfl _, fun _ => ⟨rfl, rfl, rfl⟩,
      fun _ _ => hnot, fun _ => hnot, fun _ => rfl, ⟨rfl, rfl, ⟨rfl, rfl⟩, ⟨rfl, rfl⟩, fun _ => rfl⟩, fun _ => rfl,
      ⟨rfl, rfl, ⟨rfl, rfl⟩, ⟨rfl, rfl⟩, fun _ => rfl⟩, hnot⟩
  · have hkey : (getV s x).toNat ≤ 15 := Nat.not_lt.1 habove
    rw [keyDown_key s hkey]
    have hk : ((getV s x).setWidth 4).toNat = (getV s x).toNat := by rw [BitVec.toNat_setWidth]; omega
    refine ⟨_, _, _, rfl, rfl, pcSkippedIf_skipIf rfl _, pcSkippedIf_skipIf rfl _, fun h => absurd h habove,
      fun kp hkp _ => ?_, fun hfree _ => askKey_free hfree _, fun _ => rfl,
      ⟨rfl, rfl, ⟨rfl, rfl⟩, ⟨rfl, rfl⟩, fun _ => rfl⟩, fun _ => rfl,
      ⟨rfl, rfl, ⟨rfl, rfl⟩, ⟨rfl, rfl⟩, fun _ => rfl⟩, fun _ => ⟨rfl, rfl⟩⟩
    rw [askKey_attached hkp, hk]

theorem lastKey_attached {s : State} {kp : Keypad} (h : s.ports.keypad = some kp) : (lastKey s).1 = kp.last := by
  simp [lastKey, h]

theorem lastKey_free {s : State} (h : s.ports.keypad = none) : (lastKey s).1 = Config.freeLastKey s.ports.answered := by
  simp [lastKey, h]

theorem keyOperand_toNat (k : Nibble) : (keyOperand k).toNat = k.toNat := by
  have := k.isLt
  simp [keyOperand]; omega

/-- Settles O41, for no key reported and for a key. -/
theorem waitKeyWaitsOrStoresTheKey : Obligations.WaitKeyWaitsOrStoresTheKey := by
  unfold Obligations.WaitKeyWaitsOrStoresTheKey
  intro x s
  cases h : (lastKey s).1 with
  | none =>
    exact ⟨none, _, exec_waitKey_none s x h, fun kp hkp => h ▸ lastKey_attached hkp, fun hfree => h ▸ lastKey_free hfree,
      fun _ => sameCore_countAnswer s, nofun, rfl⟩
  | some k =>
    refine ⟨some k, _, exec_waitKey_some s x k h, fun kp hkp => h ▸ lastKey_attached hkp,
      fun hfree => h ▸ lastKey_free hfree, nofun, ?_, rfl⟩
    rintro _ ⟨⟩
    exact ⟨by rw [getV_advance, getV_setV_same, keyOperand_toNat], pcAdvanced_advance rfl,
      fun _ hr => getV_setV_other (countAnswer s) hr _, rfl, rfl, ⟨rfl, rfl⟩, ⟨rfl, rfl⟩, fun _ => rfl⟩

end Sys2Proof.Machine
end

section
/-! Proofs of the display claims (45_display.md; 60_exceptions.md R240, R248): the sprite request, and the reference display's
pixels and collision answer. -/

namespace Sys2Proof.Machine

/-! ## The sprite request (R180, R240) -/

theorem drawSprite_attached {s : State} {d : Display} (h : s.ports.display = some d) (x y : Byte) (rows : List Byte) :
    (drawSprite s x y rows).1 = (d.draw x y rows).2 ∧
      (drawSprite s x y rows).2.ports.display = some (d.draw x y rows).1 := by simp [drawSprite, h]

theorem drawSprite_free {s : State} (h : s.ports.display = none) (x y : Byte) (rows : List Byte) :
    (drawSprite s x y rows).1 = freeCollisionFor s rows ∧ (drawSprite s x y rows).2.ports.display = none := by
  simp [drawSprite, h]

/-- A sprite request is counted and leaves the other ports alone. -/
theorem drawSprite_ports (s : State) (x y : Byte) (rows : List Byte) :
    (drawSprite s x y rows).2.ports.answered = s.ports.answered + 1 ∧
      (drawSprite s x y rows).2.ports.keypad = s.ports.keypad ∧
      (drawSprite s x y rows).2.ports.randomBytes = s.ports.randomBytes := by
  unfold drawSprite
  split <;> exact ⟨rfl, rfl, rfl⟩

/-- A sprite of no rows meets no pixel (R180 corner case 1). -/
theorem drawSprite_nil (s : State) (x y : Byte) : (drawSprite s x y []).1 = false := by
  cases h : s.ports.display with
  | none => exact (drawSprite_free h x y []).1
  | some d => exact (drawSprite_attached h x y []).1

/-- Settles O37: the rows are the bytes from `I` up, and the answer is the display's. -/
theorem drawRequestsTheRowsAtI : Obligations.DrawRequestsTheRowsAtI := by
  unfold Obligations.DrawRequestsTheRowsAtI
  intro x y n s
  refine ⟨fun hfit => ?_, fun h0 hpast => exec_draw_fault s x y n h0 (by omega)⟩
  have hlen : (bytesFrom s s.i.toNat n.toNat).length = n.toNat := by simp [bytesFrom]
  have hrows : ∀ k (h : k < (bytesFrom s s.i.toNat n.toNat).length),
      (bytesFrom s s.i.toNat n.toNat)[k] = memByte s (s.i.toNat + k) := by simp [bytesFrom]
  refine ⟨bytesFrom s s.i.toNat n.toNat, (drawSprite s (getV s x) (getV s y) (bytesFrom s s.i.toNat n.toNat)).1, _,
    exec_draw_next s x y n hfit, hlen, hrows, ?_⟩
  generalize bytesFrom s s.i.toNat n.toNat = rows at hlen
  obtain ⟨hanswered, hkeypad, hrandom⟩ := drawSprite_ports s (getV s x) (getV s y) rows
  refine ⟨drawSprite_log s _ _ rows, flagOf_toNat _, fun hfree h0 => ?_, fun hfree => (drawSprite_free hfree _ _ rows).2,
    fun d hd => (drawSprite_attached hd _ _ rows).symm, fun h0 => ?_, hanswered, hkeypad, hrandom, ?_⟩
  · rw [(drawSprite_free hfree _ _ rows).1]
    cases rows with
    | nil => rw [List.length_nil] at hlen; omega
    | cons => rfl
  · obtain rfl : rows = [] := List.eq_nil_of_length_eq_zero (by omega)
    exact drawSprite_nil s _ _
  · rw [drawSprite_eq]
    exact ⟨pcAdvanced_advance rfl, fun _ => rfl, rfl, ⟨rfl, rfl⟩, ⟨rfl, rfl⟩, fun _ => rfl⟩

/-! ## The pixels a sprite inverts (R248) -/

/-- A place of the buffer belongs to one column and line. -/
theorem place_eq_iff {d : Display} (x y : Byte) (r c : Nat) {col line : Nat} (hcol : col < d.width) :
    d.place x y r c = line * d.width + col ↔ (x.toNat + c) % d.width = col ∧ (y.toNat + r) % d.height = line := by
  have hw : 0 < d.width := by omega
  constructor
  · intro h
    obtain ⟨hline, hcol'⟩ := (Nat.div_mod_unique (a := d.place x y r c) hw).2
      ⟨show (x.toNat + c) % d.width + d.width * ((y.toNat + r) % d.height) = _ by rw [Display.place, Nat.mul_comm]; omega,
        Nat.mod_lt _ hw⟩
    obtain ⟨hline', hcol''⟩ := (Nat.div_mod_unique (a := d.place x y r c) hw).2
      ⟨show col + d.width * line = _ by rw [h, Nat.mul_comm]; omega, hcol⟩
    exact ⟨hcol'.symm.trans hcol'', hline.symm.trans hline'⟩
  · rintro ⟨rfl, rfl⟩
    rfl

/-- A place stands in the sprite's list once for each set bit that falls on its pixel. -/
theorem count_spritePlaces (d : Display) (x y : Byte) (rows : List Byte) {col line : Nat} (hcol : col < d.width) :
    (d.spritePlaces x y 0 rows).count (line * d.width + col) = (spriteHits d x y rows col line).length := by
  rw [spritePlaces_eq_flatMap, spriteHits, List.count_flatMap, List.length_flatMap]
  congr 1
  refine List.map_congr_left fun r _ => ?_
  rw [List.length_map, ← List.countP_eq_length_filter]
  simp only [Function.comp, Display.rowPlaces, List.count, List.countP_map, List.countP_filter]
  refine List.countP_congr fun c _ => ?_
  simp only [Nat.zero_add, Bool.and_eq_true, beq_iff_eq, place_eq_iff x y r c hcol, spriteBit]
  tauto

/-- A place in a whole buffer. -/
theorem place_lt {w h col line : Nat} (hcol : col < w) (hline : line < h) : line * w + col < w * h :=
  calc line * w + col < (line + 1) * w := by rw [Nat.succ_mul]; omega
    _ ≤ w * h := by rw [Nat.mul_comm w]; exact Nat.mul_le_mul_right w hline

/-- The places of a whole buffer are those of its columns and lines. -/
theorem exists_place_iff {w h : Nat} {p : Nat → Prop} :
    (∃ j < w * h, p j) ↔ ∃ col line, col < w ∧ line < h ∧ p (line * w + col) := by
  constructor
  · rintro ⟨j, hj, hp⟩
    have hw : 0 < w := Nat.pos_of_mul_pos_right (Nat.zero_lt_of_lt hj)
    exact ⟨j % w, j / w, Nat.mod_lt _ hw, Nat.div_lt_of_lt_mul hj, (Nat.div_add_mod' j w).symm ▸ hp⟩
  · rintro ⟨col, line, hcol, hline, hp⟩
    exact ⟨_, place_lt hcol hline, hp⟩

/-- Inverting at the same places twice restores every pixel. -/
theorem invertPixels_twice (pixels : List Bool) (places : List Nat) :
    (invertPixels (invertPixels pixels places).1 places).1 = pixels := by
  have hlen := invertPixels_length pixels places
  refine List.ext_getElem (by rw [invertPixels_length, hlen]) fun j hj hj' => ?_
  rw [← List.getD_eq_getElem _ false hj, ← List.getD_eq_getElem _ false hj', getD_invertPixels _ _ (by rwa [hlen]),
    getD_invertPixels _ _ hj']
  simp

theorem draw_pixels (d : Display) (x y : Byte) (rows : List Byte) :
    (d.draw x y rows).1 = { d with pixels := (invertPixels d.pixels (d.spritePlaces x y 0 rows)).1 } := rfl

/-- Where a sprite falls depends on the display's size alone. -/
theorem spritePlaces_draw (d : Display) (x y : Byte) (rows : List Byte) :
    (d.draw x y rows).1.spritePlaces x y 0 rows = d.spritePlaces x y 0 rows := by
  rw [spritePlaces_eq_flatMap, spritePlaces_eq_flatMap]
  rfl

/-- Settles O38: the second drawing inverts the same places; a pixel's place stands in the list once for each hit. -/
theorem drawingTwiceRestoresTheDisplay : Obligations.DrawingTwiceRestoresTheDisplay := by
  unfold Obligations.DrawingTwiceRestoresTheDisplay
  refine fun d x y rows => ⟨?_, rfl, rfl, fun hwf col line hcol hline => ?_⟩
  · rw [draw_pixels (d.draw x y rows).1, spritePlaces_draw, draw_pixels, invertPixels_twice]
  · have hlt : line * d.width + col < d.pixels.length := by
      rw [beq_iff_eq.1 hwf]
      exact place_lt hcol hline
    rw [Display.pixel, Display.pixel, ← count_spritePlaces d x y rows hcol]
    exact getD_invertPixels d.pixels _ hlt

/-! ## The collision answer (R240, R248) -/

theorem mem_spriteHits {d : Display} {x y : Byte} {rows : List Byte} {col line r c : Nat} :
    (r, c) ∈ spriteHits d x y rows col line ↔ r < rows.length ∧ c < 8 ∧ spriteBit rows r c = true ∧
      (x.toNat + c) % d.width = col ∧ (y.toNat + r) % d.height = line := by
  simp [spriteHits, and_assoc]


/-- Settles O39: `invertPixels_snd` pixel by pixel; where no pixel is hit twice, a hit is one row and column of the sprite. -/
theorem collisionMeansASetPixelWasHit : Obligations.CollisionMeansASetPixelWasHit := by
  unfold Obligations.CollisionMeansASetPixelWasHit
  intro d x y rows hwf
  have hlen : d.pixels.length = d.width * d.height := beq_iff_eq.1 hwf
  have hhit : (d.draw x y rows).2 = true ↔ ∃ col line, col < d.width ∧ line < d.height ∧
      (1 ≤ (spriteHits d x y rows col line).length ∧ d.pixel col line = true ∨
        2 ≤ (spriteHits d x y rows col line).length) := by
    rw [Display.draw, invertPixels_snd, hlen, exists_place_iff]
    refine exists_congr fun col => exists_congr fun line => and_congr_right fun hcol => ?_
    rw [count_spritePlaces d x y rows hcol, Display.pixel]
  refine ⟨hhit, fun hone => hhit.trans ?_⟩
  constructor
  · rintro ⟨col, line, hcol, hline, ⟨hpos, hset⟩ | htwo⟩
    · obtain ⟨⟨r, c⟩, hmem⟩ := List.exists_mem_of_length_pos hpos
      obtain ⟨hr, hc, hbit, rfl, rfl⟩ := mem_spriteHits.1 hmem
      exact ⟨r, c, hr, hc, hbit, hset⟩
    · have := hone col line hcol hline
      omega
  · rintro ⟨r, c, hr, hc, hbit, hset⟩
    have hpos : 0 < d.width * d.height := by
      rw [← hlen]
      refine List.length_pos_of_ne_nil fun hnil => ?_
      rw [Display.pixel, hnil] at hset
      cases hset
    have hw := Nat.pos_of_mul_pos_right hpos
    have hh := Nat.pos_of_mul_pos_left hpos
    refine ⟨_, _, Nat.mod_lt _ hw, Nat.mod_lt _ hh, .inl ⟨?_, hset⟩⟩
    exact List.length_pos_of_mem (mem_spriteHits.2 ⟨hr, hc, hbit, rfl, rfl⟩)

end Sys2Proof.Machine
end
